-- ==== Sys2Proof/Config.lean ====
section
/-! DEFINITION. The implementation parameters of MAU (00_scope.md R5) as one record whose defaults are MAU's values,
and the values the spec leaves open, as constants without a body: the contents of text memory after a hard reset
(R42, U5) and the base address of the host window (R68, U11). -/

namespace Sys2Proof.Config

/-- The parameters of R5, each with the value MAU takes. -/
structure Parameters where
  /-- width in bits of every integer register and matrix entry (D2) -/
  xlen : Nat := 32
  /-- number of scalar registers (D5) -/
  nx : Nat := 8
  /-- number of row-vector registers (D5) -/
  nv : Nat := 4
  /-- number of key-matrix registers (D5) -/
  nk : Nat := 4
  /-- largest length of a row vector (D6) -/
  vlenMax : Nat := 8
  /-- letters per text block (the digram) -/
  block : Nat := 2
  /-- value of MOD after reset (D4) -/
  modReset : Nat := 26
  /-- largest legal modulus (D4) -/
  modMax : Nat := 32767
  /-- the character code of the letter 'A'. PRESUMED by the spec itself (G1: from general knowledge); log 8 -/
  aCode : Nat := 65
  /-- bytes of text memory (D11) -/
  tmemSize : Nat := 4096
  /-- width in bits of a command word (D7) -/
  cmdBits : Nat := 32
deriving DecidableEq, Repr

/-- The parameters of the machine this model describes: every one at its default (log 14). -/
def mau : Parameters := {}

theorem mau_vlenMax : mau.vlenMax = 8 := rfl
theorem mau_block : mau.block = 2 := rfl
theorem mau_modReset : mau.modReset = 26 := rfl
theorem mau_modMax : mau.modMax = 32767 := rfl
theorem mau_aCode : mau.aCode = 65 := rfl
theorem mau_tmemSize : mau.tmemSize = 4096 := rfl

/-- FREE VALUE (R42, U5; log 3): the byte of text memory at an address after the `n`-th hard reset, as long as
nothing has written it. No body: nothing can be proved of it. -/
opaque tmemPowerOn (n address : Nat) : BitVec 8

/-- OPEN PARAMETER (R68, U11; log 9): the host address at which the host window begins. -/
opaque winBase : Nat

end Sys2Proof.Config
end

