-- ==== Sys2Proof/Word.lean ====
section
/-! DEFINITION. The word types of MAU (00_scope.md R6, R7, R61): a 32-bit word, a byte. Bit 0 is the least
significant bit. An `i32` of the spec is a `Word` read by `BitVec.toInt` (two's complement, R7). -/

namespace Sys2Proof

/-- A 32-bit word: a command, a control register, a scalar register, a matrix entry (R7, R90). -/
abbrev Word := BitVec 32

/-- A byte of text memory, 0..255 (R61). -/
abbrev Byte := BitVec 8

end Sys2Proof
end

