-- ==== Sys2Proof/Syntax.lean ====
section
/-! DEFINITION. The 20 commands of MAU as data, one constructor per row of the opcode map (30_encoding.md R96), with
the operand kinds of R93 and the immediates of R94 and R95. -/

namespace Sys2Proof

/-- A scalar register X0..X7 (R21). -/
abbrev XReg := Fin 8

/-- A row-vector register V0..V3 (R23); the operand form `vd`, `va` of R93. -/
abbrev VReg := Fin 4

/-- A key-matrix register K0..K3 (R25); the operand form `kd` of R93 (matrix number 4 to 7). -/
abbrev KReg := Fin 4

/-- A matrix number 0..7 (R27): a register of either variant. Its kind is fixed. -/
inductive MReg where
  /-- matrix number `j`, kind VEC -/
  | vec (j : VReg)
  /-- matrix number `j + 4`, kind KEY -/
  | key (j : KReg)
deriving DecidableEq, Repr

/-- A 16-bit immediate (R92). -/
abbrev Imm16 := BitVec 16

/-- A 4-bit field: `row` and `col` of GET and SET (R95), and the low four bits of the immediates of CRR, CRW and VNEW,
whose other bits must be zero (R94). -/
abbrev Field4 := BitVec 4

/-- The commands (R96), in the table's order. -/
inductive Instr where
  | nop
  | li (xd : XReg) (imm : Imm16)
  | lih (xd : XReg) (imm : Imm16)
  | crr (xd : XReg) (cr : Field4)
  | crw (cr : Field4) (xs : XReg)
  | norm (xd xs : XReg)
  | mul (vd : VReg) (ma mb : MReg)
  | red (ma : MReg)
  | get (xd : XReg) (ma : MReg) (row col : Field4)
  | set (ma : MReg) (row col : Field4) (xs : XReg)
  | width (xd : XReg) (ma : MReg)
  | height (xd : XReg) (ma : MReg)
  | vnew (vd : VReg) (n : Field4)
  | det (xd : XReg) (ma : MReg)
  | detinv (xd : XReg) (ma : MReg)
  | inv (kd : KReg) (ma : MReg)
  | l2d (xd xs : XReg)
  | d2l (xd xs : XReg)
  | ldblk (vd : VReg) (addr : Imm16)
  | stblk (va : VReg) (addr : Imm16)
deriving DecidableEq, Repr

end Sys2Proof
end

