-- ==== Sys2Proof/WellFormed.lean ====
section
/-! DEFINITION. Which terms of `Instr` are commands of MAU: the constraints of the column "more" of 30_encoding.md R96
(R100). Every other restriction of R93 and R100 is in the operand types. -/

namespace Sys2Proof

/-- The constraints R96 puts on an immediate: CRR names a control register 0..6, CRW a writable one 0..1, VNEW a length
up to `VLEN_MAX`. -/
def Instr.wellFormed : Instr → Bool
  | .nop => true
  | .li _ _ => true
  | .lih _ _ => true
  | .crr _ cr => decide (cr.toNat ≤ 6)
  | .crw cr _ => decide (cr.toNat ≤ 1)
  | .norm _ _ => true
  | .mul _ _ _ => true
  | .red _ => true
  | .get _ _ _ _ => true
  | .set _ _ _ _ => true
  | .width _ _ => true
  | .height _ _ => true
  | .vnew _ n => decide (n.toNat ≤ Config.mau.vlenMax)
  | .det _ _ => true
  | .detinv _ _ => true
  | .inv _ _ => true
  | .l2d _ _ => true
  | .d2l _ _ => true
  | .ldblk _ _ => true
  | .stblk _ _ => true

end Sys2Proof
end

