-- ==== Sys2Proof/Decode.lean ====
section
/-! DEFINITION. The command decoder (30_encoding.md R90 to R102): fields, the opcode map, total decoding that rejects by
name, and the encoder written from the same tables. -/

namespace Sys2Proof

/-! ## Fields of a command word (R91, R92) -/

/-- bits 31:24 -/
def fieldOp (w : Word) : BitVec 8 := w.extractLsb' 24 8
/-- bits 23:21 -/
def fieldRd (w : Word) : BitVec 3 := w.extractLsb' 21 3
/-- bits 20:18 -/
def fieldRa (w : Word) : BitVec 3 := w.extractLsb' 18 3
/-- bits 17:15, format R -/
def fieldRb (w : Word) : BitVec 3 := w.extractLsb' 15 3
/-- bits 14:8, format R: always zero -/
def fieldZeroR (w : Word) : BitVec 7 := w.extractLsb' 8 7
/-- bits 7:4, format R -/
def fieldRow (w : Word) : BitVec 4 := w.extractLsb' 4 4
/-- bits 3:0, format R -/
def fieldCol (w : Word) : BitVec 4 := w.extractLsb' 0 4
/-- bits 17:16, format I: always zero -/
def fieldZeroI (w : Word) : BitVec 2 := w.extractLsb' 16 2
/-- bits 15:0, format I -/
def fieldImm (w : Word) : BitVec 16 := w.extractLsb' 0 16
/-- bits 15:4 of the immediate: zero in CRR, CRW and VNEW (R94, R99) -/
def fieldImmHigh (w : Word) : BitVec 12 := w.extractLsb' 4 12

/-! ## Readings of a 3-bit register field (R93) -/

/-- a scalar register number -/
def xregOf (f : BitVec 3) : XReg := f.toFin
/-- a matrix number of either variant (R27) -/
def mregOf (f : BitVec 3) : MReg :=
  if f.toNat < 4 then .vec (Fin.ofNat 4 f.toNat) else .key (Fin.ofNat 4 (f.toNat - 4))
/-- a vector-only matrix number: 0..3, else reserved (R100) -/
def vregOf (f : BitVec 3) : Option VReg := if f.toNat < 4 then some (Fin.ofNat 4 f.toNat) else none
/-- a key-only matrix number: 4..7, else reserved (R100) -/
def kregOf (f : BitVec 3) : Option KReg := if f.toNat < 4 then none else some (Fin.ofNat 4 (f.toNat - 4))

/-- the field that names a scalar register -/
def xregField (r : XReg) : BitVec 3 := .ofFin r
/-- the field that names a vector register -/
def vregField (j : VReg) : BitVec 3 := .ofNat 3 j.val
/-- the field that names a key register -/
def kregField (j : KReg) : BitVec 3 := .ofNat 3 (j.val + 4)
/-- the field that names a matrix register -/
def mregField : MReg → BitVec 3
  | .vec j => vregField j
  | .key j => kregField j

/-! ## Decoding (R97 to R101) -/

/-- Why a word is no command. Each of them raises IllegalCommand and nothing else (R97, R224); the names tell the rules
apart and are no state of the machine. -/
inductive DecodeError where
  /-- an opcode the map does not assign (R98) -/
  | unassignedOpcode
  /-- a must-be-zero field is not zero (R99) -/
  | nonzeroField
  /-- a vector-only or key-only field or an immediate is outside its range (R100) -/
  | restrictedField
  /-- the bytes are not one 32-bit word (R90, R102); no word decodes to this -/
  | notOneWord
deriving DecidableEq, Repr

/-- The must-be-zero test of R99, then the rest of the row. -/
def whenZero (z : Bool) (i : Except DecodeError Instr) : Except DecodeError Instr :=
  if z then i else .error .nonzeroField

/-- The range test of R100 on a register field. -/
def whenReg {α : Type} (r : Option α) (i : α → Instr) : Except DecodeError Instr :=
  match r with
  | some a => .ok (i a)
  | none => .error .restrictedField

/-- The constraint of the column "more" of R96. -/
def whenWellFormed (i : Instr) : Except DecodeError Instr :=
  if i.wellFormed then .ok i else .error .restrictedField

/-- The fields of a format R word that are zero in a command whose `row` and `col` are unused (R91, R99). -/
def zeroIndexR (w : Word) : Bool := fieldZeroR w == 0 && fieldRow w == 0 && fieldCol w == 0

/-- Decode a command word (R97): total; every word selects exactly one command or is illegal. The rows are those of
R96, in its order. -/
def decode (w : Word) : Except DecodeError Instr :=
  match (fieldOp w).toNat with
  | 0x00 => whenZero (fieldRd w == 0 && fieldRa w == 0 && fieldRb w == 0 && zeroIndexR w) (.ok .nop)
  | 0x01 => whenZero (fieldRa w == 0 && fieldZeroI w == 0) (.ok (.li (xregOf (fieldRd w)) (fieldImm w)))
  | 0x02 => whenZero (fieldRa w == 0 && fieldZeroI w == 0) (.ok (.lih (xregOf (fieldRd w)) (fieldImm w)))
  | 0x04 => whenZero (fieldRa w == 0 && fieldZeroI w == 0 && fieldImmHigh w == 0)
      (whenWellFormed (.crr (xregOf (fieldRd w)) (fieldCol w)))
  | 0x05 => whenZero (fieldRd w == 0 && fieldZeroI w == 0 && fieldImmHigh w == 0)
      (whenWellFormed (.crw (fieldCol w) (xregOf (fieldRa w))))
  | 0x10 => whenZero (fieldRb w == 0 && zeroIndexR w) (.ok (.norm (xregOf (fieldRd w)) (xregOf (fieldRa w))))
  | 0x20 => whenZero (zeroIndexR w)
      (whenReg (vregOf (fieldRd w)) fun vd => .mul vd (mregOf (fieldRa w)) (mregOf (fieldRb w)))
  | 0x21 => whenZero (fieldRd w == 0 && fieldRb w == 0 && zeroIndexR w) (.ok (.red (mregOf (fieldRa w))))
  | 0x22 => whenZero (fieldRb w == 0 && fieldZeroR w == 0)
      (.ok (.get (xregOf (fieldRd w)) (mregOf (fieldRa w)) (fieldRow w) (fieldCol w)))
  | 0x23 => whenZero (fieldRd w == 0 && fieldZeroR w == 0)
      (.ok (.set (mregOf (fieldRa w)) (fieldRow w) (fieldCol w) (xregOf (fieldRb w))))
  | 0x24 => whenZero (fieldRb w == 0 && zeroIndexR w) (.ok (.width (xregOf (fieldRd w)) (mregOf (fieldRa w))))
  | 0x25 => whenZero (fieldRb w == 0 && zeroIndexR w) (.ok (.height (xregOf (fieldRd w)) (mregOf (fieldRa w))))
  | 0x26 => whenZero (fieldRa w == 0 && fieldZeroI w == 0 && fieldImmHigh w == 0)
      (match vregOf (fieldRd w) with
       | some vd => whenWellFormed (.vnew vd (fieldCol w))
       | none => .error .restrictedField)
  | 0x30 => whenZero (fieldRb w == 0 && zeroIndexR w) (.ok (.det (xregOf (fieldRd w)) (mregOf (fieldRa w))))
  | 0x31 => whenZero (fieldRb w == 0 && zeroIndexR w) (.ok (.detinv (xregOf (fieldRd w)) (mregOf (fieldRa w))))
  | 0x32 => whenZero (fieldRb w == 0 && zeroIndexR w)
      (whenReg (kregOf (fieldRd w)) fun kd => .inv kd (mregOf (fieldRa w)))
  | 0x40 => whenZero (fieldRb w == 0 && zeroIndexR w) (.ok (.l2d (xregOf (fieldRd w)) (xregOf (fieldRa w))))
  | 0x41 => whenZero (fieldRb w == 0 && zeroIndexR w) (.ok (.d2l (xregOf (fieldRd w)) (xregOf (fieldRa w))))
  | 0x42 => whenZero (fieldRa w == 0 && fieldZeroI w == 0)
      (whenReg (vregOf (fieldRd w)) fun vd => .ldblk vd (fieldImm w))
  | 0x43 => whenZero (fieldRd w == 0 && fieldZeroI w == 0)
      (whenReg (vregOf (fieldRa w)) fun va => .stblk va (fieldImm w))
  | _ => .error .unassignedOpcode

/-! ## Encoding (R91, R92, R96) -/

/-- A format R word (R91). -/
def formatR (op : BitVec 8) (rd ra rb : BitVec 3) (row col : BitVec 4) : Word :=
  op ++ rd ++ ra ++ rb ++ 0#7 ++ row ++ col

/-- A format I word (R92). -/
def formatI (op : BitVec 8) (rd ra : BitVec 3) (imm : BitVec 16) : Word :=
  op ++ rd ++ ra ++ 0#2 ++ imm

/-- The word of a command (R96): every field a command does not use is zero (R91, R99). -/
def encode : Instr → Word
  | .nop => formatR 0x00 0 0 0 0 0
  | .li xd imm => formatI 0x01 (xregField xd) 0 imm
  | .lih xd imm => formatI 0x02 (xregField xd) 0 imm
  | .crr xd cr => formatI 0x04 (xregField xd) 0 (cr.setWidth 16)
  | .crw cr xs => formatI 0x05 0 (xregField xs) (cr.setWidth 16)
  | .norm xd xs => formatR 0x10 (xregField xd) (xregField xs) 0 0 0
  | .mul vd ma mb => formatR 0x20 (vregField vd) (mregField ma) (mregField mb) 0 0
  | .red ma => formatR 0x21 0 (mregField ma) 0 0 0
  | .get xd ma row col => formatR 0x22 (xregField xd) (mregField ma) 0 row col
  | .set ma row col xs => formatR 0x23 0 (mregField ma) (xregField xs) row col
  | .width xd ma => formatR 0x24 (xregField xd) (mregField ma) 0 0 0
  | .height xd ma => formatR 0x25 (xregField xd) (mregField ma) 0 0 0
  | .vnew vd n => formatI 0x26 (vregField vd) 0 (n.setWidth 16)
  | .det xd ma => formatR 0x30 (xregField xd) (mregField ma) 0 0 0
  | .detinv xd ma => formatR 0x31 (xregField xd) (mregField ma) 0 0 0
  | .inv kd ma => formatR 0x32 (kregField kd) (mregField ma) 0 0 0
  | .l2d xd xs => formatR 0x40 (xregField xd) (xregField xs) 0 0 0
  | .d2l xd xs => formatR 0x41 (xregField xd) (xregField xs) 0 0 0
  | .ldblk vd addr => formatI 0x42 (vregField vd) 0 addr
  | .stblk va addr => formatI 0x43 0 (vregField va) addr

/-! ## The word on a byte-addressed host bus (R65) -/

/-- The bytes of a 32-bit register of the host window, lowest address first: little-endian (R65). -/
def busBytes (w : Word) : List Byte :=
  [w.extractLsb' 0 8, w.extractLsb' 8 8, w.extractLsb' 16 8, w.extractLsb' 24 8]

/-- Decode the bytes written to the CMD port, lowest address first (R65, R90): anything but one 32-bit word is
rejected. -/
def decodeBytes : List Byte → Except DecodeError Instr
  | [b0, b1, b2, b3] => decode (b3 ++ b2 ++ b1 ++ b0)
  | _ => .error .notOneWord

/-- The command the decoder reads from a table row's bits `w`, bit 0 the least significant bit of the command word; `none`
where it refuses. -/
def decodeTableWord (nbits w : Nat) : Option Instr :=
  let v := w % 2 ^ nbits
  if v < 2 ^ 32 then (decodeBytes (busBytes (BitVec.ofNat 32 v))).toOption else none

end Sys2Proof
end

