-- ==== Sys2Proof/Machine/State.lean ====
section
/-! DEFINITION. The architectural state of MAU (10_state.md R20 to R43, 20_memory.md R61), its value after reset (R42,
R231), the host's actions (20_memory.md R69 to R75, 70_reset_and_hazards.md R230), and the ways a step of the model can
stop. -/

namespace Sys2Proof.Machine

/-- A key-matrix register's content: the four fields of [a b; c d] (R25, R26). -/
structure KeyMatrix where
  a : Word
  b : Word
  c : Word
  d : Word
deriving DecidableEq, Repr

/-- The fault causes of R200, in the order of their codes 1 to 10. A fault is the machine's own behaviour: taking it
gives a next state (R203). -/
inductive Cause where
  | dimensionMismatch
  | unsupportedOperation
  | invalidIndex
  | noModularInverse
  | illegalCommand
  | arithOverflow
  | invalidSymbol
  | textRange
  | textMisaligned
  | invalidControlValue
deriving DecidableEq, Repr

/-- The width of a host access to the window (R69, R70). -/
inductive BusWidth where
  | byte
  | half
  | word
deriving DecidableEq, Repr

/-- One action of the host (R75, R219), or the reset input (R230). An offset is counted in bytes from WIN_BASE; the
window spans 0x00000 to 0x1FFFF (R69). A byte or halfword write carries its value in the low bits. -/
inductive HostAction where
  /-- a read of the window -/
  | read (width : BusWidth) (offset : BitVec 17)
  /-- a write to the window; a word write to offset 0 issues a command (R71) -/
  | write (width : BusWidth) (offset : BitVec 17) (value : Word)
  /-- the reset input is asserted, or power comes on (R230) -/
  | hardReset
deriving DecidableEq, Repr

/-- Text memory as the bytes written since the last hard reset, (address, byte) pairs at strictly rising addresses. An
address that is not listed has not been written; what it reads as is said by `byteAt` (log 3). -/
abbrev Memory := List Host.Cell

/-- The state of MAU. The first eleven fields are the whole architectural state of R20; the last three are the model's
own (logs 1, 3, 6). -/
structure State where
  /-- the scalar registers X0..X7 (R21) -/
  x : Vector Word 8
  /-- the row-vector registers V0..V3: the list of the elements (R23, R24) -/
  v : Vector (List Word) 4
  /-- the key-matrix registers K0..K3 (R25) -/
  k : Vector KeyMatrix 4
  /-- control register 0, the modulus (R33) -/
  mod : Word
  /-- control register 1, the text length (R34) -/
  tlen : Word
  /-- control register 2, bit 0 FAULT (R35) -/
  status : Word
  /-- control register 3, the cause code (R36) -/
  cause : Word
  /-- control register 4, CIX of the faulting command (R37) -/
  fcix : Word
  /-- control register 5, the word of the faulting command (R37) -/
  fcmd : Word
  /-- control register 6, the command counter (R38, R39) -/
  cix : Word
  /-- the text memory (R61) -/
  tmem : Memory
  /-- MODEL's own: the number of hard resets so far, the index of the free contents of text memory (log 3) -/
  powerOns : Nat
  /-- MODEL's own: the host's actions still to come, first one first (R75, R219; log 1) -/
  input : List HostAction
  /-- MODEL's own: what the latest window read returned (R73; log 6) -/
  readData : Option Word
deriving DecidableEq, Repr

/-- Why a step can stop with a fault OF THE MODEL. The faults of MAU (R200) are not here: they give a next state. -/
inductive Fault where
  /-- Raised by the text memory operations for an address at or above TMEM_SIZE, where R62 and R63 define no access. No
  state that holds the invariant of R34 (TLEN ≤ TMEM_SIZE) raises it. Safe (log 4). -/
  | tmemAddress
deriving DecidableEq, Repr

/-- Why a step can be refused. -/
inductive Refusal where
  /-- Raised by an arm of `exec` for an instruction without a meaning; no arm does. Safe. -/
  | notModelled (mnemonic : String)
  /-- Raised by a host access of a width or alignment other than the location's, which the spec leaves undefined and asks
  a model to refuse (R70, U6). No command raises it. Safe (log 5). -/
  | windowAccess
deriving DecidableEq, Repr

/-- The zero key matrix (R42). -/
def KeyMatrix.zero : KeyMatrix := { a := 0, b := 0, c := 0, d := 0 }

/-- The state after a hard reset (R42, R231): every register at the value of the table, text memory with nothing
written. -/
def State.reset : State :=
  { x := Vector.replicate 8 0
    v := Vector.replicate 4 []
    k := Vector.replicate 4 KeyMatrix.zero
    mod := BitVec.ofNat 32 Config.mau.modReset
    tlen := 0
    status := 0
    cause := 0
    fcix := 0
    fcmd := 0
    cix := 0
    tmem := []
    powerOns := 0
    input := []
    readData := none }

end Sys2Proof.Machine
end

