-- ==== Sys2Proof/Machine/Ops.lean ====
section
/-! DEFINITION. The shared operations of MAU: registers, text memory (20_memory.md R61 to R64), the integer laws
(40_modular_integer_ops.md R120, R122), and how a command ends: it retires (10_state.md R39) or enters a fault
(60_exceptions.md R203), which only a reset leaves (R205, R230). -/

namespace Sys2Proof.Machine

/-! ## Registers (R21 to R26) -/

def State.getX (s : State) (r : XReg) : Word := s.x[r]
def State.setX (s : State) (r : XReg) (w : Word) : State := { s with x := s.x.set r w }
def State.getV (s : State) (j : VReg) : List Word := s.v[j]
def State.setV (s : State) (j : VReg) (es : List Word) : State := { s with v := s.v.set j es }
def State.getK (s : State) (j : KReg) : KeyMatrix := s.k[j]
def State.setK (s : State) (j : KReg) (m : KeyMatrix) : State := { s with k := s.k.set j m }

/-- The value of MOD as a number (R33). -/
def State.modulus (s : State) : Nat := s.mod.toNat

/-- The value of TLEN as a number (R34). -/
def State.textLength (s : State) : Nat := s.tlen.toNat

/-- An `i32` result as it is stored: two's complement (R7). Every value stored so fits (`fits32`) in a state that holds
the invariant of R33. -/
def toWord (v : Int) : Word := BitVec.ofInt 32 v

/-! ## How a command can end early -/

/-- A command that does not retire: it raises a fault of MAU (R203), or it leaves the model's memory (log 4). -/
inductive Abort where
  | raise (c : Cause)
  | outside (f : Fault)
deriving DecidableEq, Repr

/-! ## Integer laws -/

/-- `fits32` of R7 and R9. -/
def fits32 (v : Int) : Bool := decide (-2147483648 ≤ v ∧ v ≤ 2147483647)

/-- `chk` of R9: a named intermediate of the overflow law (R122). -/
def chk (v : Int) : Except Abort Int :=
  if fits32 v then .ok v else .error (.raise .arithOverflow)

/-- `norm(v, m)` of R120, by its characterisation (R123): the remainder in [0, m) for m ≥ 1. -/
def normMod (v : Int) (m : Nat) : Int := v % (m : Int)

/-! ## Text memory -/

/-- The byte written last at an address, if one was written since the last hard reset. -/
def memGet : Memory → Nat → Option Byte
  | [], _ => none
  | (b, w) :: rest, a => if b = a then some w else memGet rest a

/-- Write a byte, keeping the addresses strictly rising. -/
def memSet : Memory → Nat → Byte → Memory
  | [], a, w => [(a, w)]
  | (b, u) :: rest, a, w =>
    if a < b then (a, w) :: (b, u) :: rest
    else if a = b then (a, w) :: rest
    else (b, u) :: memSet rest a w

/-- The canonical form of text memory: strictly rising addresses, all of them addresses of TMEM (R61). -/
def memWf : Memory → Bool
  | [] => true
  | (a, _) :: rest =>
    decide (a < Config.mau.tmemSize) && rest.all (fun c => decide (a < c.1)) && memWf rest

/-- What the byte at an address reads as: the byte written last, or a free value where nothing has written since the last
hard reset (R42, R76, U5; log 3). -/
def byteAt (s : State) (a : Nat) : Byte := (memGet s.tmem a).getD (Config.tmemPowerOn s.powerOns a)

/-- Store a byte at an address of TMEM. -/
def setByte (s : State) (a : Nat) (w : Byte) : State := { s with tmem := memSet s.tmem a w }

/-- `MemRead(addr, 1)` (R62). -/
def memRead (s : State) (a : Nat) : Except Abort Byte :=
  if a < Config.mau.tmemSize then .ok (byteAt s a) else .error (.outside .tmemAddress)

/-- `MemWrite(addr, 1, v)` (R63). -/
def memWrite (s : State) (a : Nat) (w : Byte) : Except Abort State :=
  if a < Config.mau.tmemSize then .ok (setByte s a w) else .error (.outside .tmemAddress)

/-- `MemWrite` at consecutive addresses, the first byte at the lowest (R65, R170). -/
def memWriteAll (s : State) (a : Nat) : List Byte → Except Abort State
  | [] => .ok s
  | w :: ws =>
    match memWrite s a w with
    | .ok t => memWriteAll t (a + 1) ws
    | .error e => .error e

/-- The text extent (R64): the `n` bytes from address `a` are inside the text. -/
def insideText (s : State) (a n : Nat) : Bool := decide (a + n ≤ s.textLength)

/-! ## The end of a command -/

/-- The code of a cause (R200). -/
def causeCode : Cause → Word
  | .dimensionMismatch => 1
  | .unsupportedOperation => 2
  | .invalidIndex => 3
  | .noModularInverse => 4
  | .illegalCommand => 5
  | .arithOverflow => 6
  | .invalidSymbol => 7
  | .textRange => 8
  | .textMisaligned => 9
  | .invalidControlValue => 10

/-- Fault entry (R203): the word `w` raises the cause `c`; STATUS.FAULT, CAUSE, FCIX and FCMD are written and nothing
else changes. -/
def enterFault (c : Cause) (w : Word) (s : State) : State :=
  { s with status := s.status ||| 1#32, cause := causeCode c, fcix := s.cix, fcmd := w }

/-- A command retires: CIX advances by one, modulo 2^32 (R39). -/
def retire (s : State) : State := { s with cix := s.cix + 1 }

/-- The end of the command `i` issued in state `s` (R10): its writes and the advance of CIX, or fault entry from the state
before the command, or the model's stop. The word recorded in FCMD is the command's own (log 7). -/
def complete (i : Instr) (s : State) (r : Except Abort State) : Host.Outcome State Fault Refusal :=
  match r with
  | .ok t => .next (retire t)
  | .error (.raise c) => .next (enterFault c (encode i) s)
  | .error (.outside f) => .fault f

/-! ## Leaving a fault: the two resets (R205, R230) -/

/-- Soft reset (R72, R230 b): every register to its reset value, text memory kept. The model's own fields are no
registers and are kept too. -/
def softReset (s : State) : State :=
  { State.reset with tmem := s.tmem, powerOns := s.powerOns, input := s.input, readData := s.readData }

/-- Hard reset (R230 a): every register to its reset value, the contents of text memory any value: a fresh one for each
hard reset (log 3). -/
def hardReset (s : State) : State :=
  { State.reset with powerOns := s.powerOns + 1, input := s.input, readData := s.readData }

end Sys2Proof.Machine
end

