-- ==== Sys2Proof/Machine/Flags.lean ====
section
/-! DEFINITION. The one status bit of MAU. There are no condition codes and no command writes a flag (10_state.md R40);
overflow faults (R122). The only status bit is STATUS.FAULT (R35), seen outside as the line fault_irq (R210). -/

namespace Sys2Proof.Machine

/-- STATUS.FAULT: bit 0 of STATUS (R35). -/
def State.faulted (s : State) : Bool := s.status.getLsbD 0

/-- The interrupt output `fault_irq`: equal to STATUS.FAULT at all times (R210). -/
def State.faultIrq (s : State) : Bool := s.faulted

/-- What STATUS reads as: FAULT in bit 0, bits 31:1 zero (R32, R35). -/
def State.statusWord (s : State) : Word := s.status &&& 1#32

end Sys2Proof.Machine
end

