-- ==== Sys2Proof/Machine/Operands.lean ====
section
/-! DEFINITION. The operand forms of MAU: immediates (30_encoding.md R94, R95), matrix numbers and the matrix abstraction
over both variants (10_state.md R27 to R30, 41_matrix_abstraction.md R138, R139), control register numbers
(10_state.md R32), letters and digits (43_block_codec.md R165). -/

namespace Sys2Proof.Machine

/-! ## Immediates -/

/-- `sext_32` of a 16-bit immediate (R8, R94). -/
def sext32 (imm : Imm16) : Word := imm.signExtend 32

/-- `zext_32` of a 16-bit immediate, as the byte address it is in LDBLK and STBLK (R94). -/
def addressOf (imm : Imm16) : Nat := imm.toNat

/-! ## Matrices -/

/-- The content of a matrix register of either variant. -/
inductive MatrixValue where
  | vec (es : List Word)
  | key (m : KeyMatrix)
deriving DecidableEq, Repr

/-- `M[n]` of R9 and R27. -/
def State.matrix (s : State) : MReg → MatrixValue
  | .vec j => .vec (s.getV j)
  | .key j => .key (s.getK j)

/-- `width(n)` (R28). -/
def matrixWidth : MatrixValue → Nat
  | .vec es => es.length
  | .key _ => 2

/-- `height(n)` (R29). -/
def matrixHeight : MatrixValue → Nat
  | .vec _ => 1
  | .key _ => 2

/-- `entry(n, r, c)` (R26, R30): `none` where (r, c) is not valid (R138, R139). -/
def matrixEntry : MatrixValue → Nat → Nat → Option Word
  | .vec es, 0, c => es[c]?
  | .vec _, _ + 1, _ => none
  | .key m, 0, 0 => some m.a
  | .key m, 0, 1 => some m.b
  | .key m, 1, 0 => some m.c
  | .key m, 1, 1 => some m.d
  | .key _, _, _ => none

/-- The columns of a matrix, left to right, each from top to bottom: the entries `entry(n, k, c)` of column c for
k = 0, 1, .. (R26, R30). -/
def matrixColumns : MatrixValue → List (List Word)
  | .vec es => es.map fun e => [e]
  | .key m => [[m.a, m.c], [m.b, m.d]]

/-- Replace one field of a key matrix (R26); no other index pair exists. -/
def setField (m : KeyMatrix) (r c : Nat) (w : Word) : KeyMatrix :=
  match r, c with
  | 0, 0 => { m with a := w }
  | 0, 1 => { m with b := w }
  | 1, 0 => { m with c := w }
  | 1, 1 => { m with d := w }
  | _, _ => m

/-- Store into the entry (r, c) of a matrix register (R134); used only where the pair is valid. -/
def State.setEntry (s : State) (n : MReg) (r c : Nat) (w : Word) : State :=
  match n with
  | .vec j => s.setV j ((s.getV j).set c w)
  | .key j => s.setK j (setField (s.getK j) r c w)

/-! ## Control registers -/

/-- The value a read of control register `n` gives (R32): `none` for a number that is not assigned. -/
def controlRead (s : State) (n : Nat) : Option Word :=
  match n with
  | 0 => some s.mod
  | 1 => some s.tlen
  | 2 => some s.statusWord
  | 3 => some s.cause
  | 4 => some s.fcix
  | 5 => some s.fcmd
  | 6 => some s.cix
  | _ => none

/-- A write of `w` to control register `n` (R33, R34, R189): the state after it, or the fault that refuses it. A number
that is read-only or not assigned is an illegal command (R100). -/
def controlWrite (s : State) (n : Nat) (w : Word) : Except Abort State :=
  match n with
  | 0 =>
    if 1 ≤ w.toInt ∧ w.toInt ≤ Config.mau.modMax then .ok { s with mod := w }
    else .error (.raise .invalidControlValue)
  | 1 =>
    if 0 ≤ w.toInt ∧ w.toInt ≤ Config.mau.tmemSize then .ok { s with tlen := w }
    else .error (.raise .invalidControlValue)
  | _ => .error (.raise .illegalCommand)

/-! ## Letters and digits -/

/-- `is_letter` of R9 and R165, under modulus `m`. -/
def isLetter (b : Int) (m : Nat) : Bool :=
  decide ((Config.mau.aCode : Int) ≤ b ∧ b ≤ 255 ∧ b - Config.mau.aCode < m)

/-- `is_digit` of R9 and R165, under modulus `m`. -/
def isDigit (d : Int) (m : Nat) : Bool :=
  decide (0 ≤ d ∧ d < m ∧ d + Config.mau.aCode ≤ 255)

end Sys2Proof.Machine
end

