-- ==== Sys2Proof/Machine/BlockCodec.lean ====
section
/-! DEFINITION. Block Codec (43_block_codec.md R165 to R171): L2D, D2L, LDBLK, STBLK. -/

namespace Sys2Proof.Machine

/-- Letter to digit (R165, R166): `digit = letter_code - A_CODE`, for a valid letter under modulus `m`. -/
def letterToDigit (b : Int) (m : Nat) : Except Abort Word :=
  if isLetter b m then .ok (toWord (b - Config.mau.aCode)) else .error (.raise .invalidSymbol)

/-- Digit to letter (R165, R167): `letter_code = digit + A_CODE`, for a valid digit under modulus `m`. -/
def digitToLetter (d : Int) (m : Nat) : Except Abort Word :=
  if isDigit d m then .ok (toWord (d + Config.mau.aCode)) else .error (.raise .invalidSymbol)

/-- L2D xd, xs (R166). -/
def execL2d (xd xs : XReg) (s : State) : Host.Outcome State Fault Refusal :=
  complete (.l2d xd xs) s ((letterToDigit (s.getX xs).toInt s.modulus).map fun w => s.setX xd w)

/-- D2L xd, xs (R167). -/
def execD2l (xd xs : XReg) (s : State) : Host.Outcome State Fault Refusal :=
  complete (.d2l xd xs) s ((digitToLetter (s.getX xs).toInt s.modulus).map fun w => s.setX xd w)

/-- The two bytes of a block as digits (R168, R169): both are letters, or the block is refused. -/
def decodeBlock (b0 b1 : Byte) (m : Nat) : Except Abort (List Word) :=
  match letterToDigit b0.toNat m, letterToDigit b1.toNat m with
  | .ok d0, .ok d1 => .ok [d0, d1]
  | .error e, _ => .error e
  | _, .error e => .error e

/-- Read and decode the block at address `a` (R169): alignment, then range, then the letters. -/
def loadBlock (s : State) (a : Nat) : Except Abort (List Word) :=
  if a % 2 = 1 then .error (.raise .textMisaligned)
  else if insideText s a Config.mau.block = false then .error (.raise .textRange)
  else
    match memRead s a, memRead s (a + 1) with
    | .ok b0, .ok b1 => decodeBlock b0 b1 s.modulus
    | .error e, _ => .error e
    | _, .error e => .error e

/-- LDBLK vd, addr (R169). -/
def execLdblk (vd : VReg) (addr : Imm16) (s : State) : Host.Outcome State Fault Refusal :=
  complete (.ldblk vd addr) s ((loadBlock s (addressOf addr)).map fun es => s.setV vd es)

/-- The letters of a block (R170): all elements are checked before any is used. -/
def encodeBlock (m : Nat) : List Word → Except Abort (List Byte)
  | [] => .ok []
  | e :: es =>
    match digitToLetter e.toInt m with
    | .error x => .error x
    | .ok w =>
      match encodeBlock m es with
      | .error x => .error x
      | .ok ws => .ok (w.setWidth 8 :: ws)

/-- Encode and store a block at address `a` (R171): range, then the digits, then the bytes. -/
def storeBlock (s : State) (a : Nat) (es : List Word) : Except Abort State :=
  if insideText s a es.length = false then .error (.raise .textRange)
  else
    match encodeBlock s.modulus es with
    | .error e => .error e
    | .ok letters => memWriteAll s a letters

/-- STBLK va, addr (R171). -/
def execStblk (va : VReg) (addr : Imm16) (s : State) : Host.Outcome State Fault Refusal :=
  complete (.stblk va addr) s (storeBlock s (addressOf addr) (s.getV va))

end Sys2Proof.Machine
end

