-- ==== Sys2Proof/Machine/ModularInteger.lean ====
section
/-! DEFINITION. Modular Integer Ops (40_modular_integer_ops.md R121): NORM. -/

namespace Sys2Proof.Machine

/-- `norm` of a stored word under MOD, as it is stored (R120, R121). -/
def normWord (s : State) (w : Word) : Word := toWord (normMod w.toInt s.modulus)

/-- NORM xd, xs (R121). -/
def execNorm (xd xs : XReg) (s : State) : Host.Outcome State Fault Refusal :=
  complete (.norm xd xs) s (.ok (s.setX xd (normWord s (s.getX xs))))

end Sys2Proof.Machine
end

