-- ==== Sys2Proof/Machine/KeyMatrixEntity.lean ====
section
/-! DEFINITION. Key Matrix Entity (42_key_matrix.md R150 to R156): DET, DETINV, INV. Nothing is cached (R156): each
reads the fields of the register and MOD when it executes. -/

namespace Sys2Proof.Machine

/-- `det(K)` (R150) under modulus `m`. -/
def determinant (k : KeyMatrix) (m : Nat) : Except Abort Int :=
  match chk (k.a.toInt * k.d.toInt) with
  | .error e => .error e
  | .ok p1 =>
    match chk (k.b.toInt * k.c.toInt) with
    | .error e => .error e
    | .ok p2 =>
      match chk (p1 - p2) with
      | .error e => .error e
      | .ok t => .ok (normMod t m)

/-- The linear scan of R152, ascending from `inv`, over `trials` candidates. -/
def scanInverse (dt : Int) (m : Nat) : (trials inv : Nat) → Option Nat
  | 0, _ => none
  | trials + 1, inv => if normMod (dt * inv) m = 1 then some inv else scanInverse dt m trials (inv + 1)

/-- `detinv(dt)` (R152): the scan over 0, 1, .., m - 1. -/
def determinantInverse (dt : Int) (m : Nat) : Except Abort Int :=
  match scanInverse dt m m 0 with
  | some inv => .ok inv
  | none => .error (.raise .noModularInverse)

/-- A product of a field with the determinant's inverse, then `norm` (R154, fields a and d of the result). -/
def scaled (w : Word) (di : Int) (m : Nat) : Except Abort Word :=
  match chk (w.toInt * di) with
  | .error e => .error e
  | .ok e => .ok (toWord (normMod e m))

/-- A product, its negation, then `norm` (R154, fields b and c of the result). -/
def scaledNeg (w : Word) (di : Int) (m : Nat) : Except Abort Word :=
  match chk (w.toInt * di) with
  | .error e => .error e
  | .ok q =>
    match chk (-q) with
    | .error e => .error e
    | .ok e => .ok (toWord (normMod e m))

/-- The adjugate of R154 scaled by the determinant's inverse `di`, every entry normalised. -/
def scaledAdjugate (k : KeyMatrix) (di : Int) (m : Nat) : Except Abort KeyMatrix :=
  match scaled k.d di m with
  | .error e => .error e
  | .ok a =>
    match scaledNeg k.b di m with
    | .error e => .error e
    | .ok b =>
      match scaledNeg k.c di m with
      | .error e => .error e
      | .ok c =>
        match scaled k.a di m with
        | .error e => .error e
        | .ok d => .ok { a := a, b := b, c := c, d := d }

/-- The determinant and its inverse, computed inside the command (R153, R156). -/
def inverseOfDeterminant (k : KeyMatrix) (m : Nat) : Except Abort Int :=
  match determinant k m with
  | .error e => .error e
  | .ok dt => determinantInverse dt m

/-- `inverse(K)` (R154). -/
def inverseKey (k : KeyMatrix) (m : Nat) : Except Abort KeyMatrix :=
  match inverseOfDeterminant k m with
  | .error e => .error e
  | .ok di => scaledAdjugate k di m

/-- The variant check of R140, first among the command's checks: a vector register has no determinant. -/
def keyOperand (s : State) : MReg → Except Abort KeyMatrix
  | .vec _ => .error (.raise .unsupportedOperation)
  | .key j => .ok (s.getK j)

/-- DET xd, ma (R151). -/
def execDet (xd : XReg) (ma : MReg) (s : State) : Host.Outcome State Fault Refusal :=
  complete (.det xd ma) s
    (match keyOperand s ma with
     | .error e => .error e
     | .ok k => (determinant k s.modulus).map fun dt => s.setX xd (toWord dt))

/-- DETINV xd, ma (R153). -/
def execDetinv (xd : XReg) (ma : MReg) (s : State) : Host.Outcome State Fault Refusal :=
  complete (.detinv xd ma) s
    (match keyOperand s ma with
     | .error e => .error e
     | .ok k => (inverseOfDeterminant k s.modulus).map fun di => s.setX xd (toWord di))

/-- INV kd, ma (R155). -/
def execInv (kd : KReg) (ma : MReg) (s : State) : Host.Outcome State Fault Refusal :=
  complete (.inv kd ma) s
    (match keyOperand s ma with
     | .error e => .error e
     | .ok k => (inverseKey k s.modulus).map fun k' => s.setK kd k')

end Sys2Proof.Machine
end

