-- ==== Sys2Proof/Machine/MatrixAbstraction.lean ====
section
/-! DEFINITION. Matrix Abstraction (41_matrix_abstraction.md R130 to R140): MUL, RED, GET, SET, WIDTH, HEIGHT, VNEW. -/

namespace Sys2Proof.Machine

/-- The inner loop of R131: the running sum `acc` plus the products of a row with a column, every product and every running
sum a named intermediate. -/
def dotFrom (acc : Int) : List Word → List Word → Except Abort Int
  | u :: us, w :: ws =>
    match chk (u.toInt * w.toInt) with
    | .error e => .error e
    | .ok p =>
      match chk (acc + p) with
      | .error e => .error e
      | .ok sum => dotFrom sum us ws
  | _, _ => .ok acc

/-- The outer loop of R131: one entry of the result for each column of `other`, unreduced. -/
def rowTimes (row : List Word) : List (List Word) → Except Abort (List Word)
  | [] => .ok []
  | column :: rest =>
    match dotFrom 0 row column with
    | .error e => .error e
    | .ok sum =>
      match rowTimes row rest with
      | .error e => .error e
      | .ok sums => .ok (toWord sum :: sums)

/-- The multiplication contract (R130, R131): `self` must be a row vector, the widths must fit. -/
def multiply (self other : MatrixValue) : Except Abort (List Word) :=
  match self with
  | .key _ => .error (.raise .unsupportedOperation)
  | .vec row =>
    if row.length = matrixHeight other then rowTimes row (matrixColumns other)
    else .error (.raise .dimensionMismatch)

/-- MUL vd, ma, mb (R131). -/
def execMul (vd : VReg) (ma mb : MReg) (s : State) : Host.Outcome State Fault Refusal :=
  complete (.mul vd ma mb) s ((multiply (s.matrix ma) (s.matrix mb)).map fun es => s.setV vd es)

/-- `norm` of the four fields of a key matrix under MOD (R132). -/
def normKey (s : State) (m : KeyMatrix) : KeyMatrix :=
  { a := normWord s m.a, b := normWord s m.b, c := normWord s m.c, d := normWord s m.d }

/-- RED ma (R132): every entry normalised in place. -/
def execRed (ma : MReg) (s : State) : Host.Outcome State Fault Refusal :=
  complete (.red ma) s
    (match ma with
     | .vec j => .ok (s.setV j ((s.getV j).map (normWord s)))
     | .key j => .ok (s.setK j (normKey s (s.getK j))))

/-- GET xd, ma, row, col (R133). -/
def execGet (xd : XReg) (ma : MReg) (row col : Field4) (s : State) : Host.Outcome State Fault Refusal :=
  complete (.get xd ma row col) s
    (match matrixEntry (s.matrix ma) row.toNat col.toNat with
     | some w => .ok (s.setX xd w)
     | none => .error (.raise .invalidIndex))

/-- SET ma, row, col, xs (R134): stored as it is. -/
def execSet (ma : MReg) (row col : Field4) (xs : XReg) (s : State) : Host.Outcome State Fault Refusal :=
  complete (.set ma row col xs) s
    (match matrixEntry (s.matrix ma) row.toNat col.toNat with
     | some _ => .ok (s.setEntry ma row.toNat col.toNat (s.getX xs))
     | none => .error (.raise .invalidIndex))

/-- WIDTH xd, ma (R135). -/
def execWidth (xd : XReg) (ma : MReg) (s : State) : Host.Outcome State Fault Refusal :=
  complete (.width xd ma) s (.ok (s.setX xd (BitVec.ofNat 32 (matrixWidth (s.matrix ma)))))

/-- HEIGHT xd, ma (R136). -/
def execHeight (xd : XReg) (ma : MReg) (s : State) : Host.Outcome State Fault Refusal :=
  complete (.height xd ma) s (.ok (s.setX xd (BitVec.ofNat 32 (matrixHeight (s.matrix ma)))))

/-- VNEW vd, n (R137): `n` zeros. A length above VLEN_MAX is IllegalCommand (R100; the decoder never gives one, log 7). -/
def execVnew (vd : VReg) (n : Field4) (s : State) : Host.Outcome State Fault Refusal :=
  complete (.vnew vd n) s
    (if n.toNat ≤ Config.mau.vlenMax then .ok (s.setV vd (List.replicate n.toNat 0))
     else .error (.raise .illegalCommand))

end Sys2Proof.Machine
end

