-- ==== Sys2Proof/Machine/System.lean ====
section
/-! DEFINITION. The system and scalar-load commands (44_system_commands.md R185 to R189): NOP, LI, LIH, CRR, CRW. -/

namespace Sys2Proof.Machine

/-- NOP (R185). -/
def execNop (s : State) : Host.Outcome State Fault Refusal :=
  complete .nop s (.ok s)

/-- LI xd, imm (R186): the sign-extended immediate. -/
def execLi (xd : XReg) (imm : Imm16) (s : State) : Host.Outcome State Fault Refusal :=
  complete (.li xd imm) s (.ok (s.setX xd (sext32 imm)))

/-- `{ imm16, old[15:0] }` of R187. -/
def highHalf (imm : Imm16) (old : Word) : Word := imm ++ old.extractLsb' 0 16

/-- LIH xd, imm (R187): the high half replaced, the low half kept. -/
def execLih (xd : XReg) (imm : Imm16) (s : State) : Host.Outcome State Fault Refusal :=
  complete (.lih xd imm) s (.ok (s.setX xd (highHalf imm (s.getX xd))))

/-- CRR xd, cr (R188): the value before this command retires. A number that is not assigned is IllegalCommand (R100; the
decoder never gives one, log 7). -/
def execCrr (xd : XReg) (cr : Field4) (s : State) : Host.Outcome State Fault Refusal :=
  complete (.crr xd cr) s
    (match controlRead s cr.toNat with
     | some w => .ok (s.setX xd w)
     | none => .error (.raise .illegalCommand))

/-- CRW cr, xs (R189). -/
def execCrw (cr : Field4) (xs : XReg) (s : State) : Host.Outcome State Fault Refusal :=
  complete (.crw cr xs) s (controlWrite s cr.toNat (s.getX xs))

end Sys2Proof.Machine
end

