-- ==== Sys2Proof/Machine/Dispatch.lean ====
section
/-! DEFINITION. The meaning of every command (30_encoding.md R97: execute the row's rule). -/

namespace Sys2Proof.Machine

def exec (i : Instr) (s : State) : Host.Outcome State Fault Refusal :=
  match i with
  | .nop => Sys2Proof.Machine.execNop s
  | .li xd imm => Sys2Proof.Machine.execLi xd imm s
  | .lih xd imm => Sys2Proof.Machine.execLih xd imm s
  | .crr xd cr => Sys2Proof.Machine.execCrr xd cr s
  | .crw cr xs => Sys2Proof.Machine.execCrw cr xs s
  | .norm xd xs => Sys2Proof.Machine.execNorm xd xs s
  | .mul vd ma mb => Sys2Proof.Machine.execMul vd ma mb s
  | .red ma => Sys2Proof.Machine.execRed ma s
  | .get xd ma row col => Sys2Proof.Machine.execGet xd ma row col s
  | .set ma row col xs => Sys2Proof.Machine.execSet ma row col xs s
  | .width xd ma => Sys2Proof.Machine.execWidth xd ma s
  | .height xd ma => Sys2Proof.Machine.execHeight xd ma s
  | .vnew vd n => Sys2Proof.Machine.execVnew vd n s
  | .det xd ma => Sys2Proof.Machine.execDet xd ma s
  | .detinv xd ma => Sys2Proof.Machine.execDetinv xd ma s
  | .inv kd ma => Sys2Proof.Machine.execInv kd ma s
  | .l2d xd xs => Sys2Proof.Machine.execL2d xd xs s
  | .d2l xd xs => Sys2Proof.Machine.execD2l xd xs s
  | .ldblk vd addr => Sys2Proof.Machine.execLdblk vd addr s
  | .stblk va addr => Sys2Proof.Machine.execStblk va addr s

end Sys2Proof.Machine
end

