-- ==== Sys2Proof/Machine/Window.lean ====
section
/-! DEFINITION. The host window (20_memory.md R69, R70, R73, R74): its locations, which accesses are accesses of a
location, what a read returns and what a write to text memory does. Offsets are counted from WIN_BASE. -/

namespace Sys2Proof.Machine

/-- The locations of R69. A location's register number is within its range by the way `wordLocation` makes it. -/
inductive Location where
  | cmd
  | ctrl
  | control (n : Nat)
  | scalar (r : XReg)
  | element (j : VReg) (e : Nat)
  | length (j : VReg)
  | field (j : KReg) (f : Nat)
  | text (a : Nat)
deriving DecidableEq, Repr

/-- The word location that begins at offset `o`, a multiple of 4 (R69). -/
def wordLocation (o : Nat) : Option Location :=
  if o = 0x00000 then some .cmd
  else if o = 0x00004 then some .ctrl
  else if 0x00040 ≤ o ∧ o < 0x0005C then some (.control ((o - 0x00040) / 4))
  else if 0x00080 ≤ o ∧ o < 0x000A0 then some (.scalar (Fin.ofNat 8 ((o - 0x00080) / 4)))
  else if 0x00100 ≤ o ∧ o < 0x00200 then
    if (o - 0x00100) % 0x40 < 0x20 then
      some (.element (Fin.ofNat 4 ((o - 0x00100) / 0x40)) ((o - 0x00100) % 0x40 / 4))
    else if (o - 0x00100) % 0x40 = 0x20 then some (.length (Fin.ofNat 4 ((o - 0x00100) / 0x40)))
    else none
  else if 0x00200 ≤ o ∧ o < 0x00240 then
    some (.field (Fin.ofNat 4 ((o - 0x00200) / 0x10)) ((o - 0x00200) % 0x10 / 4))
  else none

/-- The byte location at offset `o`: text memory (R69). -/
def byteLocation (o : Nat) : Option Location :=
  if 0x10000 ≤ o ∧ o < 0x10000 + Config.mau.tmemSize then some (.text (o - 0x10000)) else none

/-- The location, of either width, that the byte at offset `o` belongs to; `none` for an unassigned offset. -/
def locationOfByte (o : Nat) : Option Location :=
  match byteLocation o with
  | some l => some l
  | none => wordLocation (o - o % 4)

/-- The bytes of an access. -/
def busBytesOf : BusWidth → Nat
  | .byte => 1
  | .half => 2
  | .word => 4

/-- What an access of the window reaches (R70). -/
inductive Target where
  /-- exactly one location, at its own width and alignment -/
  | location (l : Location)
  /-- unassigned offsets only -/
  | unassigned
  /-- an access the spec does not define (U6; log 5) -/
  | undefinedAccess
deriving DecidableEq, Repr

/-- The location an access names, if it has that location's width and alignment (R70). -/
def exactLocation (width : BusWidth) (o : Nat) : Option Location :=
  match width with
  | .word => if o % 4 = 0 then wordLocation o else none
  | .byte => byteLocation o
  | .half => none

/-- Every byte of the access lies in the window and belongs to no location. -/
def allUnassigned (width : BusWidth) (o : Nat) : Bool :=
  (List.range (busBytesOf width)).all fun i => decide (o + i < 0x20000) && (locationOfByte (o + i)).isNone

/-- Sort an access by R70 and U6. -/
def accessTarget (width : BusWidth) (offset : BitVec 17) : Target :=
  match exactLocation width offset.toNat with
  | some l => .location l
  | none => if allUnassigned width offset.toNat then .unassigned else .undefinedAccess

/-- What a read of a location returns (R69, R70, R73, R74); a read changes nothing. -/
def readLocation (s : State) : Location → Word
  | .cmd => 0
  | .ctrl => 0
  | .control n => (controlRead s n).getD 0
  | .scalar r => s.getX r
  | .element j e => (s.getV j)[e]?.getD 0
  | .length j => BitVec.ofNat 32 (s.getV j).length
  | .field j f => (matrixEntry (.key (s.getK j)) (f / 2) (f % 2)).getD 0
  | .text a => (byteAt s a).setWidth 32

/-- What a window read returns; `none` where the spec defines no such access (U6). -/
def windowRead (s : State) (width : BusWidth) (offset : BitVec 17) : Option Word :=
  match accessTarget width offset with
  | .location l => some (readLocation s l)
  | .unassigned => some 0
  | .undefinedAccess => none

/-- The offset a host address has in the window, if it lies in it (R68, R69): WIN_BASE is the platform's (log 9). -/
def windowOffset (hostAddress : Nat) : Option (BitVec 17) :=
  if Config.winBase ≤ hostAddress ∧ hostAddress < Config.winBase + 0x20000 then
    some (BitVec.ofNat 17 (hostAddress - Config.winBase))
  else none

end Sys2Proof.Machine
end

