-- ==== Sys2Proof/Machine/Port.lean ====
section
/-! DEFINITION. What one action of the host does (20_memory.md R70 to R75, 60_exceptions.md R203, R204,
70_reset_and_hazards.md R230): the CMD port, CTRL, window reads and writes, the reset input. -/

namespace Sys2Proof.Machine

/-- A word is issued at the CMD port (R71): discarded while FAULT = 1 (R204); else decoded and executed, or refused by
the decoder, which enters the fault IllegalCommand with the word itself as the record (R97, R203, R224). -/
def issue (w : Word) (s : State) : Host.Outcome State Fault Refusal :=
  if s.faulted then .next s
  else
    match decode w with
    | .ok i => exec i s
    | .error _ => .next (enterFault .illegalCommand w s)

/-- A write to CTRL (R72): bit 0 = 1 performs a soft reset; the other bits are ignored. -/
def writeCtrl (value : Word) (s : State) : State :=
  if value.getLsbD 0 then softReset s else s

/-- A window write (R70 to R72, R74): CMD, CTRL and text memory act, a read-only or unassigned location ignores it. -/
def windowWrite (width : BusWidth) (offset : BitVec 17) (value : Word) (s : State) :
    Host.Outcome State Fault Refusal :=
  match accessTarget width offset with
  | .location .cmd => issue value s
  | .location .ctrl => .next (writeCtrl value s)
  | .location (.text a) => .next (setByte s a (value.setWidth 8))
  | .location _ => .next s
  | .unassigned => .next s
  | .undefinedAccess => .refused .windowAccess

/-- One action, performed completely (R75). -/
def perform (action : HostAction) (s : State) : Host.Outcome State Fault Refusal :=
  match action with
  | .hardReset => .next (hardReset s)
  | .write width offset value => windowWrite width offset value s
  | .read width offset =>
    match windowRead s width offset with
    | some w => .next { s with readData := some w }
    | none => .refused .windowAccess

/-- The action by which the host issues a command: a word write to CMD (R69, R71). -/
def commandAction (w : Word) : HostAction := .write .word 0 w

/-- The next action of the host, if one is left (R75); with none left the unit is idle and keeps all state (R217, R219;
log 2). -/
def nextAction (s : State) : Host.Outcome State Fault Refusal :=
  match s.input with
  | [] => .next s
  | action :: rest => perform action { s with input := rest }

end Sys2Proof.Machine
end

