-- ==== Sys2Proof/Machine/Step.lean ====
section
/-! DEFINITION. One step of the machine: the next action of the host (20_memory.md R75). MAU fetches nothing (10_state.md
R38); a command reaches it as a word write to the CMD port (R71). -/

namespace Sys2Proof.Machine

/-- One step. -/
def step : State → Host.Outcome State Fault Refusal := nextAction

/-- `s` with the command word `w` as the host's next action: its very next step issues it (log 1). -/
def State.withFetchWord (s : State) (nbits w : Nat) : State :=
  { s with input := commandAction (BitVec.ofNat 32 (w % 2 ^ nbits)) :: s.input }

end Sys2Proof.Machine
end

