-- ==== Sys2Proof/Machine/OpcodeMap.lean ====
section
/-! DEFINITION. The opcode map of 30_encoding.md R96 as data: for each command its `match`, its `mask` and the constraint
of the column "more". The decoder (`decode`) is written from the fields; this table is the map's other form, and the
claims hold the one against the other. -/

namespace Sys2Proof.Machine

/-- A row of R96. -/
structure OpcodeRow where
  mnemonic : String
  pattern : Word
  mask : Word
  /-- the largest value of imm16 the row takes, where the column "more" gives one -/
  limit : Option Nat
deriving DecidableEq, Repr

/-- The 20 rows, in the table's order. -/
def opcodeMap : List OpcodeRow :=
  [{ mnemonic := "NOP", pattern := 0x00000000, mask := 0xFFFFFFFF, limit := none },
   { mnemonic := "LI", pattern := 0x01000000, mask := 0xFF1F0000, limit := none },
   { mnemonic := "LIH", pattern := 0x02000000, mask := 0xFF1F0000, limit := none },
   { mnemonic := "CRR", pattern := 0x04000000, mask := 0xFF1FFFF0, limit := some 6 },
   { mnemonic := "CRW", pattern := 0x05000000, mask := 0xFFE3FFF0, limit := some 1 },
   { mnemonic := "NORM", pattern := 0x10000000, mask := 0xFF03FFFF, limit := none },
   { mnemonic := "MUL", pattern := 0x20000000, mask := 0xFF807FFF, limit := none },
   { mnemonic := "RED", pattern := 0x21000000, mask := 0xFFE3FFFF, limit := none },
   { mnemonic := "GET", pattern := 0x22000000, mask := 0xFF03FF00, limit := none },
   { mnemonic := "SET", pattern := 0x23000000, mask := 0xFFE07F00, limit := none },
   { mnemonic := "WIDTH", pattern := 0x24000000, mask := 0xFF03FFFF, limit := none },
   { mnemonic := "HEIGHT", pattern := 0x25000000, mask := 0xFF03FFFF, limit := none },
   { mnemonic := "VNEW", pattern := 0x26000000, mask := 0xFF9FFFF0, limit := some 8 },
   { mnemonic := "DET", pattern := 0x30000000, mask := 0xFF03FFFF, limit := none },
   { mnemonic := "DETINV", pattern := 0x31000000, mask := 0xFF03FFFF, limit := none },
   { mnemonic := "INV", pattern := 0x32800000, mask := 0xFF83FFFF, limit := none },
   { mnemonic := "L2D", pattern := 0x40000000, mask := 0xFF03FFFF, limit := none },
   { mnemonic := "D2L", pattern := 0x41000000, mask := 0xFF03FFFF, limit := none },
   { mnemonic := "LDBLK", pattern := 0x42000000, mask := 0xFF9F0000, limit := none },
   { mnemonic := "STBLK", pattern := 0x43000000, mask := 0xFFF30000, limit := none }]

/-- A word selects a row (R96, R97): `(w & mask) = match`, and imm16 is within the row's constraint. -/
def selects (w : Word) (r : OpcodeRow) : Bool :=
  w &&& r.mask == r.pattern &&
    (match r.limit with
     | some n => decide ((w.extractLsb' 0 16).toNat ≤ n)
     | none => true)

end Sys2Proof.Machine
end

