-- ==== Sys2Proof/Machine/Pseudo.lean ====
section
/-! DEFINITION. The pseudo-instructions of 30_encoding.md R104 as the commands they expand to, in order. Each command is
executed, counted in CIX and able to fault on its own; no state of the machine belongs to a pseudo-instruction. -/

namespace Sys2Proof.Machine

/-- `LI32 xd, v`: load any 32-bit value. -/
def expandLi32 (xd : XReg) (v : Word) : List Instr :=
  [.li xd (v.extractLsb' 0 16), .lih xd (v.extractLsb' 16 16)]

/-- `SETMOD xs`. -/
def expandSetmod (xs : XReg) : List Instr := [.crw 0 xs]

/-- `SETTLEN xs`. -/
def expandSettlen (xs : XReg) : List Instr := [.crw 1 xs]

/-- `KSET kd, xa, xb, xc, xd`: construct or mutate a key matrix. -/
def expandKset (kd : KReg) (xa xb xc xd : XReg) : List Instr :=
  [.set (.key kd) 0 0 xa, .set (.key kd) 0 1 xb, .set (.key kd) 1 0 xc, .set (.key kd) 1 1 xd]

/-- `ENC vd, va, kb`: encrypt or decrypt one block. -/
def expandEnc (vd va : VReg) (kb : KReg) : List Instr := [.mul vd (.vec va) (.key kb), .red (.vec vd)]

end Sys2Proof.Machine
end

