-- ==== Sys2Proof/Safety.lean ====
section
/-! DEFINITION. What counts as a legal state and as a good run of MAU, and the words the claims are stated in: the
invariant of the reachable states (10_state.md R24, R33 to R37), runs of host actions (60_exceptions.md R219), frames. -/

namespace Sys2Proof.Machine

/-! ## The invariant of the reachable states -/

/-- MOD holds a legal modulus (R33). -/
abbrev State.modOk (s : State) : Prop := 1 ≤ s.modulus ∧ s.modulus ≤ 32767

/-- TLEN holds a legal length (R34). -/
abbrev State.tlenOk (s : State) : Prop := s.textLength ≤ 4096

/-- Every vector register has at most VLEN_MAX elements (R23, R24). -/
abbrev State.lengthsOk (s : State) : Prop := ∀ j : VReg, (s.getV j).length ≤ 8

/-- The fault record (R35 to R37): with FAULT = 0 it is empty; with FAULT = 1 it holds one of the codes 1 to 10 and the
index of the faulting command, which is the value CIX keeps (R203, R204). Bits 31:1 of STATUS are zero in both. -/
abbrev State.recordOk (s : State) : Prop :=
  (s.status = 0 ∧ s.cause = 0 ∧ s.fcix = 0 ∧ s.fcmd = 0) ∨
    (s.status = 1 ∧ 1 ≤ s.cause.toNat ∧ s.cause.toNat ≤ 10 ∧ s.fcix = s.cix)

/-- What holds of every state the unit can reach. -/
structure State.Legal (s : State) : Prop where
  mod_ok : s.modOk
  tlen_ok : s.tlenOk
  lengths_ok : s.lengthsOk
  record_ok : s.recordOk
  tmem_ok : memWf s.tmem = true

/-! ## Runs (R219) -/

/-- Perform a finite sequence of host actions in order. -/
def performAll : List HostAction → State → Host.Outcome State Fault Refusal
  | [], s => .next s
  | action :: rest, s =>
    match perform action s with
    | .next t => performAll rest t
    | .fault f => .fault f
    | .refused r => .refused r

/-- A run ended well: STATUS.FAULT = 0 after its last action (R219). -/
def State.EndedWell (s : State) : Prop := s.faulted = false

/-- The actions that issue these commands, in order (R71). -/
def commandActions (words : List Word) : List HostAction := words.map commandAction

/-- The command `i` retires from `s` to `t`: it has a next state in which CIX has advanced (R39); fault entry leaves CIX
unchanged (R203). -/
def Retires (i : Instr) (s t : State) : Prop := exec i s = .next t ∧ t.cix = s.cix + 1

/-! ## The words of the arithmetic claims -/

/-- `a*d - b*c` in the integers (R150). -/
def detInt (k : KeyMatrix) : Int := k.a.toInt * k.d.toInt - k.b.toInt * k.c.toInt

/-- The named intermediates of the determinant fit (R122, R150). -/
def DetFits (k : KeyMatrix) : Prop :=
  fits32 (k.a.toInt * k.d.toInt) = true ∧ fits32 (k.b.toInt * k.c.toInt) = true ∧ fits32 (detInt k) = true

/-- The named intermediates of the scaled adjugate fit (R122, R154). -/
def AdjugateFits (k : KeyMatrix) (di : Int) : Prop :=
  fits32 (k.d.toInt * di) = true ∧ fits32 (k.b.toInt * di) = true ∧ fits32 (-(k.b.toInt * di)) = true ∧
    fits32 (k.c.toInt * di) = true ∧ fits32 (-(k.c.toInt * di)) = true ∧ fits32 (k.a.toInt * di) = true

/-- `w` is the stored canonical residue of `v` modulo `m` (R120). -/
def IsResidue (w : Word) (v : Int) (m : Nat) : Prop := 0 ≤ w.toInt ∧ w.toInt < m ∧ (m : Int) ∣ v - w.toInt

/-- The entry (r, c) as an integer, 0 where there is none (R30). -/
def entryInt (a : MatrixValue) (r c : Nat) : Int := ((matrixEntry a r c).map BitVec.toInt).getD 0

/-- The first `n` terms of the sum over k of `self(0,k) * other(k,c)` (R130). -/
def partialSum (a b : MatrixValue) (c n : Nat) : Int := ∑ k ∈ Finset.range n, entryInt a 0 k * entryInt b k c

/-- Every product and every running sum of the matrix product fits (R122, R131). -/
def ProductFits (a b : MatrixValue) : Prop :=
  ∀ c < matrixWidth b, ∀ k < matrixWidth a,
    fits32 (entryInt a 0 k * entryInt b k c) = true ∧ fits32 (partialSum a b c (k + 1)) = true

/-- (row, col) is a valid index of the matrix register (R138, R139). -/
def ValidIndex (s : State) (n : MReg) (row col : Nat) : Prop :=
  match n with
  | .vec j => row = 0 ∧ col < (s.getV j).length
  | .key _ => row ≤ 1 ∧ col ≤ 1

/-- A letter code of the alphabet of `m` letters (R165). -/
def LetterCode (b : Int) (m : Nat) : Prop := 65 ≤ b ∧ b ≤ 255 ∧ b ≤ 65 + m - 1

/-- A digit of the alphabet of `m` letters that has a letter code (R165). -/
def DigitValue (d : Int) (m : Nat) : Prop := 0 ≤ d ∧ d ≤ m - 1 ∧ d ≤ 190

/-- The matrix registers a command reads entries or the shape of (R24, R26). -/
def matrixOperands : Instr → List MReg
  | .nop => []
  | .li _ _ => []
  | .lih _ _ => []
  | .crr _ _ => []
  | .crw _ _ => []
  | .norm _ _ => []
  | .mul _ ma mb => [ma, mb]
  | .red ma => [ma]
  | .get _ ma _ _ => [ma]
  | .set ma _ _ _ => [ma]
  | .width _ ma => [ma]
  | .height _ ma => [ma]
  | .vnew _ _ => []
  | .det _ ma => [ma]
  | .detinv _ ma => [ma]
  | .inv _ ma => [ma]
  | .l2d _ _ => []
  | .d2l _ _ => []
  | .ldblk _ _ => []
  | .stblk va _ => [.vec va]

/-- Every entry of the matrix register `n` is canonical (R31). -/
def CanonicalMatrix (s : State) (n : MReg) : Prop :=
  ∀ (r c : Nat) (w : Word), matrixEntry (s.matrix n) r c = some w → 0 ≤ w.toInt ∧ w.toInt < s.modulus

/-- Every operand entry of the command `i` is canonical (R122 b); other registers hold anything. -/
def CanonicalOperands (i : Instr) (s : State) : Prop := ∀ n ∈ matrixOperands i, CanonicalMatrix s n

/-! ## Frames -/

/-- The control registers but CIX, and the model's own fields, are unchanged. -/
structure SameControl (s t : State) : Prop where
  mod_eq : t.mod = s.mod
  tlen_eq : t.tlen = s.tlen
  status_eq : t.status = s.status
  cause_eq : t.cause = s.cause
  fcix_eq : t.fcix = s.fcix
  fcmd_eq : t.fcmd = s.fcmd
  powerOns_eq : t.powerOns = s.powerOns
  input_eq : t.input = s.input
  readData_eq : t.readData = s.readData

/-- Every scalar register is unchanged. -/
def SameX (s t : State) : Prop := ∀ r : XReg, t.getX r = s.getX r

/-- Every vector register is unchanged. -/
def SameV (s t : State) : Prop := ∀ j : VReg, t.getV j = s.getV j

/-- Every key register is unchanged. -/
def SameK (s t : State) : Prop := ∀ j : KReg, t.getK j = s.getK j

/-- Every byte of text memory reads as before. -/
def SameText (s t : State) : Prop := ∀ a : Nat, byteAt t a = byteAt s a

/-- A command retired from `s` to `t` and wrote at most the scalar register `xd`, which holds `w` after it. -/
structure WritesX (s t : State) (xd : XReg) (w : Word) : Prop where
  result : t.getX xd = w
  others : ∀ r : XReg, r ≠ xd → t.getX r = s.getX r
  sameV : SameV s t
  sameK : SameK s t
  sameText : SameText s t
  control : SameControl s t
  cix_eq : t.cix = s.cix + 1

/-- A command retired from `s` to `t` and wrote at most the vector register `vd`, which holds `es` after it. -/
structure WritesV (s t : State) (vd : VReg) (es : List Word) : Prop where
  result : t.getV vd = es
  others : ∀ j : VReg, j ≠ vd → t.getV j = s.getV j
  sameX : SameX s t
  sameK : SameK s t
  sameText : SameText s t
  control : SameControl s t
  cix_eq : t.cix = s.cix + 1

/-- A command retired from `s` to `t` and wrote at most the key register `kd`, which holds `k` after it. -/
structure WritesK (s t : State) (kd : KReg) (k : KeyMatrix) : Prop where
  result : t.getK kd = k
  others : ∀ j : KReg, j ≠ kd → t.getK j = s.getK j
  sameX : SameX s t
  sameV : SameV s t
  sameText : SameText s t
  control : SameControl s t
  cix_eq : t.cix = s.cix + 1

/-- A command retired from `s` to `t` and every scalar register, control register and byte of text memory is unchanged;
of the matrix registers, all but `n` are. -/
structure WritesMatrix (s t : State) (n : MReg) : Prop where
  others : ∀ n' : MReg, n' ≠ n → t.matrix n' = s.matrix n'
  sameX : SameX s t
  sameText : SameText s t
  control : SameControl s t
  cix_eq : t.cix = s.cix + 1

/-- A command retired from `s` to `t` and wrote at most MOD and TLEN, which hold these words after it. -/
structure WritesControl (s t : State) (mod tlen : Word) : Prop where
  mod_eq : t.mod = mod
  tlen_eq : t.tlen = tlen
  sameX : SameX s t
  sameV : SameV s t
  sameK : SameK s t
  sameText : SameText s t
  status_eq : t.status = s.status
  cause_eq : t.cause = s.cause
  fcix_eq : t.fcix = s.fcix
  fcmd_eq : t.fcmd = s.fcmd
  powerOns_eq : t.powerOns = s.powerOns
  input_eq : t.input = s.input
  readData_eq : t.readData = s.readData
  cix_eq : t.cix = s.cix + 1

/-- The command word `w`, issued in `s`, enters the fault `c`: STATUS.FAULT, CAUSE, FCIX and FCMD record it, and nothing
else changes (R203). -/
structure Faults (w : Word) (c : Cause) (s t : State) : Prop where
  fault_set : t.faulted = true
  status_rest : ∀ i, i ≠ 0 → t.status.getLsbD i = s.status.getLsbD i
  cause_eq : t.cause = causeCode c
  fcix_eq : t.fcix = s.cix
  fcmd_eq : t.fcmd = w
  cix_eq : t.cix = s.cix
  mod_eq : t.mod = s.mod
  tlen_eq : t.tlen = s.tlen
  sameX : SameX s t
  sameV : SameV s t
  sameK : SameK s t
  sameText : SameText s t
  powerOns_eq : t.powerOns = s.powerOns
  input_eq : t.input = s.input
  readData_eq : t.readData = s.readData

/-- The bytes of the read-only locations of R69: control registers, X, V with the lengths, K. -/
def RegisterOffset (o : Nat) : Prop :=
  (0x40 ≤ o ∧ o < 0x5C) ∨ (0x80 ≤ o ∧ o < 0xA0) ∨ (0x100 ≤ o ∧ o < 0x200 ∧ (o - 0x100) % 0x40 < 0x24) ∨
    (0x200 ≤ o ∧ o < 0x240)

/-- The offsets of the table of R69: CMD and CTRL, the read-only locations, text memory. -/
def AssignedOffset (o : Nat) : Prop := o < 0x8 ∨ RegisterOffset o ∨ (0x10000 ≤ o ∧ o < 0x11000)

end Sys2Proof.Machine
end

