-- ==== Sys2Proof/Certificates/Slice0/Obligations.lean ====
section
/-! DEFINITION. What is claimed of MAU, statement by statement, from the numbered rules of the spec. Each docstring names
the rule it formalises. -/

open Sys2Proof Sys2Proof.Machine

/-! ## The commands, one rule each: encoding, effect with frame, faults in their order -/

/-- R185. -/
def Obligations.NopRetiresAndChangesNothingElse : Prop :=
  ∀ s : State, (∀ w : Word, decode w = .ok .nop ↔ w = 0) ∧
    ∃ t, exec .nop s = .next t ∧ SameX s t ∧ SameV s t ∧ SameK s t ∧ SameText s t ∧ SameControl s t ∧
      t.cix = s.cix + 1

/-- R186. -/
def Obligations.LiLoadsSignedImmediate : Prop :=
  ∀ (xd : XReg) (imm : Imm16) (s : State),
    encode (.li xd imm) = formatI 0x01 (xregField xd) 0 imm ∧
    ∃ t w, exec (.li xd imm) s = .next t ∧ WritesX s t xd w ∧ w.toInt = imm.toInt

/-- R187. -/
def Obligations.LihReplacesHighHalf : Prop :=
  ∀ (xd : XReg) (imm : Imm16) (s : State),
    encode (.lih xd imm) = formatI 0x02 (xregField xd) 0 imm ∧
    ∃ t w, exec (.lih xd imm) s = .next t ∧ WritesX s t xd w ∧
      w.extractLsb' 16 16 = imm ∧ w.extractLsb' 0 16 = (s.getX xd).extractLsb' 0 16

/-- R188, R32: what each control register reads as, before the command retires; while FAULT = 0, and a
command executes only then (R35), the record reads as zero; the numbers 7 to 15 are no command (R100). -/
def Obligations.CrrReadsControlRegister : Prop :=
  ∀ (xd : XReg) (cr : Field4) (s : State),
    encode (.crr xd cr) = formatI 0x04 (xregField xd) 0 (cr.setWidth 16) ∧
    (cr.toNat ≤ 6 →
      ∃ t w, exec (.crr xd cr) s = .next t ∧ WritesX s t xd w ∧
        (cr = 0 → w = s.mod) ∧ (cr = 1 → w = s.tlen) ∧ (cr = 2 → w = if s.faulted then 1 else 0) ∧
        (cr = 3 → w = s.cause) ∧ (cr = 4 → w = s.fcix) ∧ (cr = 5 → w = s.fcmd) ∧ (cr = 6 → w = s.cix) ∧
        (s.recordOk → s.faulted = false → 2 ≤ cr.toNat → cr.toNat ≤ 5 → w = 0)) ∧
    (7 ≤ cr.toNat → ∃ e, decode (encode (.crr xd cr)) = .error e)

/-- R189, R33, R34: MOD and TLEN take the legal values only; the numbers 2 to 15 are no command (R100). -/
def Obligations.CrwWritesLegalValuesOnly : Prop :=
  ∀ (xs : XReg) (s : State),
    encode (.crw 0 xs) = formatI 0x05 0 (xregField xs) 0 ∧ encode (.crw 1 xs) = formatI 0x05 0 (xregField xs) 1 ∧
    (1 ≤ (s.getX xs).toInt → (s.getX xs).toInt ≤ 32767 →
      ∃ t, exec (.crw 0 xs) s = .next t ∧ WritesControl s t (s.getX xs) s.tlen) ∧
    (¬ (1 ≤ (s.getX xs).toInt ∧ (s.getX xs).toInt ≤ 32767) →
      ∃ t, exec (.crw 0 xs) s = .next t ∧ Faults (encode (.crw 0 xs)) .invalidControlValue s t) ∧
    (0 ≤ (s.getX xs).toInt → (s.getX xs).toInt ≤ 4096 →
      ∃ t, exec (.crw 1 xs) s = .next t ∧ WritesControl s t s.mod (s.getX xs)) ∧
    (¬ (0 ≤ (s.getX xs).toInt ∧ (s.getX xs).toInt ≤ 4096) →
      ∃ t, exec (.crw 1 xs) s = .next t ∧ Faults (encode (.crw 1 xs)) .invalidControlValue s t) ∧
    (∀ cr : Field4, 2 ≤ cr.toNat → ∃ e, decode (encode (.crw cr xs)) = .error e)

/-- R121. -/
def Obligations.NormWritesCanonicalResidue : Prop :=
  ∀ (xd xs : XReg) (s : State), s.modOk →
    encode (.norm xd xs) = formatR 0x10 (xregField xd) (xregField xs) 0 0 0 ∧
    ∃ t w, exec (.norm xd xs) s = .next t ∧ WritesX s t xd w ∧ IsResidue w (s.getX xs).toInt s.modulus

/-- R130, R131, with the overflow law R122: key as `self`, then dimensions, then overflow, else the sums. -/
def Obligations.MulComputesExactProductOrFaults : Prop :=
  ∀ (vd : VReg) (ma mb : MReg) (s : State),
    encode (.mul vd ma mb) = formatR 0x20 (vregField vd) (mregField ma) (mregField mb) 0 0 ∧
    (∀ j, ma = .key j →
      ∃ t, exec (.mul vd ma mb) s = .next t ∧ Faults (encode (.mul vd ma mb)) .unsupportedOperation s t) ∧
    (∀ j, ma = .vec j → matrixWidth (s.matrix ma) ≠ matrixHeight (s.matrix mb) →
      ∃ t, exec (.mul vd ma mb) s = .next t ∧ Faults (encode (.mul vd ma mb)) .dimensionMismatch s t) ∧
    (∀ j, ma = .vec j → matrixWidth (s.matrix ma) = matrixHeight (s.matrix mb) →
      ¬ ProductFits (s.matrix ma) (s.matrix mb) →
      ∃ t, exec (.mul vd ma mb) s = .next t ∧ Faults (encode (.mul vd ma mb)) .arithOverflow s t) ∧
    (∀ j, ma = .vec j → matrixWidth (s.matrix ma) = matrixHeight (s.matrix mb) →
      ProductFits (s.matrix ma) (s.matrix mb) →
      ∃ t es, exec (.mul vd ma mb) s = .next t ∧ WritesV s t vd es ∧ es.length = matrixWidth (s.matrix mb) ∧
        ∀ (c : Nat) (h : c < es.length),
          es[c].toInt = partialSum (s.matrix ma) (s.matrix mb) c (matrixWidth (s.matrix ma)))

/-- R132. -/
def Obligations.RedNormalisesEveryEntryInPlace : Prop :=
  ∀ (ma : MReg) (s : State), s.modOk →
    encode (.red ma) = formatR 0x21 0 (mregField ma) 0 0 0 ∧
    ∃ t, exec (.red ma) s = .next t ∧ WritesMatrix s t ma ∧
      matrixWidth (t.matrix ma) = matrixWidth (s.matrix ma) ∧
      ∀ (r c : Nat) (w : Word), matrixEntry (s.matrix ma) r c = some w →
        ∃ w', matrixEntry (t.matrix ma) r c = some w' ∧ IsResidue w' w.toInt s.modulus

/-- R133 with R138, R139. -/
def Obligations.GetReadsValidEntryOrFaults : Prop :=
  ∀ (xd : XReg) (ma : MReg) (row col : Field4) (s : State),
    encode (.get xd ma row col) = formatR 0x22 (xregField xd) (mregField ma) 0 row col ∧
    (ValidIndex s ma row.toNat col.toNat →
      ∃ t w, exec (.get xd ma row col) s = .next t ∧ WritesX s t xd w ∧
        matrixEntry (s.matrix ma) row.toNat col.toNat = some w) ∧
    (¬ ValidIndex s ma row.toNat col.toNat →
      ∃ t, exec (.get xd ma row col) s = .next t ∧ Faults (encode (.get xd ma row col)) .invalidIndex s t)

/-- R134 with R138, R139. -/
def Obligations.SetStoresValidEntryOrFaults : Prop :=
  ∀ (ma : MReg) (row col : Field4) (xs : XReg) (s : State),
    encode (.set ma row col xs) = formatR 0x23 0 (mregField ma) (xregField xs) row col ∧
    (ValidIndex s ma row.toNat col.toNat →
      ∃ t, exec (.set ma row col xs) s = .next t ∧ WritesMatrix s t ma ∧
        matrixWidth (t.matrix ma) = matrixWidth (s.matrix ma) ∧
        matrixEntry (t.matrix ma) row.toNat col.toNat = some (s.getX xs) ∧
        ∀ r c : Nat, (r ≠ row.toNat ∨ c ≠ col.toNat) →
          matrixEntry (t.matrix ma) r c = matrixEntry (s.matrix ma) r c) ∧
    (¬ ValidIndex s ma row.toNat col.toNat →
      ∃ t, exec (.set ma row col xs) s = .next t ∧ Faults (encode (.set ma row col xs)) .invalidIndex s t)

/-- R135, R136, R28, R29. The bound on the lengths is R24's. -/
def Obligations.WidthAndHeightReportTheShape : Prop :=
  ∀ (xd : XReg) (s : State), s.lengthsOk →
    (∀ ma, encode (.width xd ma) = formatR 0x24 (xregField xd) (mregField ma) 0 0 0 ∧
      encode (.height xd ma) = formatR 0x25 (xregField xd) (mregField ma) 0 0 0) ∧
    (∀ j : VReg, ∃ t w, exec (.width xd (.vec j)) s = .next t ∧ WritesX s t xd w ∧ w.toInt = (s.getV j).length) ∧
    (∀ j : KReg, ∃ t, exec (.width xd (.key j)) s = .next t ∧ WritesX s t xd 2) ∧
    (∀ j : VReg, ∃ t, exec (.height xd (.vec j)) s = .next t ∧ WritesX s t xd 1) ∧
    (∀ j : KReg, ∃ t, exec (.height xd (.key j)) s = .next t ∧ WritesX s t xd 2)

/-- R137: a zero vector of the length; a length above 8 is no command (R100). -/
def Obligations.VnewMakesZeroVector : Prop :=
  ∀ (vd : VReg) (n : Field4) (s : State),
    encode (.vnew vd n) = formatI 0x26 (vregField vd) 0 (n.setWidth 16) ∧
    (n.toNat ≤ 8 →
      ∃ t es, exec (.vnew vd n) s = .next t ∧ WritesV s t vd es ∧ es.length = n.toNat ∧ ∀ e ∈ es, e = 0) ∧
    (∀ imm : Imm16, 9 ≤ imm.toNat → ∃ e, decode (formatI 0x26 (vregField vd) 0 imm) = .error e)

/-- R150, R151: a vector register first, then overflow, else the determinant's residue. -/
def Obligations.DetComputesDeterminantOrFaults : Prop :=
  ∀ (xd : XReg) (s : State),
    (∀ ma, encode (.det xd ma) = formatR 0x30 (xregField xd) (mregField ma) 0 0 0) ∧
    (∀ j : VReg, ∃ t, exec (.det xd (.vec j)) s = .next t ∧
      Faults (encode (.det xd (.vec j))) .unsupportedOperation s t) ∧
    (∀ j : KReg, ¬ DetFits (s.getK j) → ∃ t, exec (.det xd (.key j)) s = .next t ∧
      Faults (encode (.det xd (.key j))) .arithOverflow s t) ∧
    (∀ j : KReg, s.modOk → DetFits (s.getK j) → ∃ t w, exec (.det xd (.key j)) s = .next t ∧ WritesX s t xd w ∧
      IsResidue w (detInt (s.getK j)) s.modulus)

/-- R152, R153: a vector register, overflow, no inverse (gcd, and always for MOD = 1), else the inverse. -/
def Obligations.DetinvComputesInverseOrFaults : Prop :=
  ∀ (xd : XReg) (s : State),
    (∀ ma, encode (.detinv xd ma) = formatR 0x31 (xregField xd) (mregField ma) 0 0 0) ∧
    (∀ j : VReg, ∃ t, exec (.detinv xd (.vec j)) s = .next t ∧
      Faults (encode (.detinv xd (.vec j))) .unsupportedOperation s t) ∧
    (∀ j : KReg, ¬ DetFits (s.getK j) → ∃ t, exec (.detinv xd (.key j)) s = .next t ∧
      Faults (encode (.detinv xd (.key j))) .arithOverflow s t) ∧
    (∀ j : KReg, s.modOk → DetFits (s.getK j) →
      (s.modulus = 1 ∨ Int.gcd (detInt (s.getK j)) s.modulus ≠ 1) →
      ∃ t, exec (.detinv xd (.key j)) s = .next t ∧ Faults (encode (.detinv xd (.key j))) .noModularInverse s t) ∧
    (∀ j : KReg, s.modOk → DetFits (s.getK j) → 2 ≤ s.modulus → Int.gcd (detInt (s.getK j)) s.modulus = 1 →
      ∃ t w, exec (.detinv xd (.key j)) s = .next t ∧ WritesX s t xd w ∧
        0 ≤ w.toInt ∧ w.toInt < s.modulus ∧ (s.modulus : Int) ∣ detInt (s.getK j) * w.toInt - 1)

/-- R154, R155: a vector register, overflow in the determinant, no inverse, overflow in the products and negations, else
the adjugate scaled by `di`, the inverse of the determinant. -/
def Obligations.InvComputesInverseMatrixOrFaults : Prop :=
  ∀ (kd : KReg) (s : State),
    (∀ ma, encode (.inv kd ma) = formatR 0x32 (kregField kd) (mregField ma) 0 0 0) ∧
    (∀ j : VReg, ∃ t, exec (.inv kd (.vec j)) s = .next t ∧
      Faults (encode (.inv kd (.vec j))) .unsupportedOperation s t) ∧
    (∀ j : KReg, ¬ DetFits (s.getK j) → ∃ t, exec (.inv kd (.key j)) s = .next t ∧
      Faults (encode (.inv kd (.key j))) .arithOverflow s t) ∧
    (∀ j : KReg, s.modOk → DetFits (s.getK j) →
      (s.modulus = 1 ∨ Int.gcd (detInt (s.getK j)) s.modulus ≠ 1) →
      ∃ t, exec (.inv kd (.key j)) s = .next t ∧ Faults (encode (.inv kd (.key j))) .noModularInverse s t) ∧
    (∀ (j : KReg) (di : Int), s.modOk → DetFits (s.getK j) → 2 ≤ s.modulus → 0 ≤ di → di < s.modulus →
      (s.modulus : Int) ∣ detInt (s.getK j) * di - 1 → ¬ AdjugateFits (s.getK j) di →
      ∃ t, exec (.inv kd (.key j)) s = .next t ∧ Faults (encode (.inv kd (.key j))) .arithOverflow s t) ∧
    (∀ (j : KReg) (di : Int), s.modOk → DetFits (s.getK j) → 2 ≤ s.modulus → 0 ≤ di → di < s.modulus →
      (s.modulus : Int) ∣ detInt (s.getK j) * di - 1 → AdjugateFits (s.getK j) di →
      ∃ t k, exec (.inv kd (.key j)) s = .next t ∧ WritesK s t kd k ∧
        IsResidue k.a ((s.getK j).d.toInt * di) s.modulus ∧ IsResidue k.b (-((s.getK j).b.toInt * di)) s.modulus ∧
        IsResidue k.c (-((s.getK j).c.toInt * di)) s.modulus ∧ IsResidue k.d ((s.getK j).a.toInt * di) s.modulus)

/-- R166 with R165. -/
def Obligations.LetterToDigitOrFaults : Prop :=
  ∀ (xd xs : XReg) (s : State),
    encode (.l2d xd xs) = formatR 0x40 (xregField xd) (xregField xs) 0 0 0 ∧
    (LetterCode (s.getX xs).toInt s.modulus →
      ∃ t w, exec (.l2d xd xs) s = .next t ∧ WritesX s t xd w ∧ w.toInt = (s.getX xs).toInt - 65) ∧
    (¬ LetterCode (s.getX xs).toInt s.modulus →
      ∃ t, exec (.l2d xd xs) s = .next t ∧ Faults (encode (.l2d xd xs)) .invalidSymbol s t)

/-- R167 with R165. -/
def Obligations.DigitToLetterOrFaults : Prop :=
  ∀ (xd xs : XReg) (s : State),
    encode (.d2l xd xs) = formatR 0x41 (xregField xd) (xregField xs) 0 0 0 ∧
    (DigitValue (s.getX xs).toInt s.modulus →
      ∃ t w, exec (.d2l xd xs) s = .next t ∧ WritesX s t xd w ∧ w.toInt = (s.getX xs).toInt + 65) ∧
    (¬ DigitValue (s.getX xs).toInt s.modulus →
      ∃ t, exec (.d2l xd xs) s = .next t ∧ Faults (encode (.d2l xd xs)) .invalidSymbol s t)

/-- R169 with R64, R66, R168: alignment, then range, then letters, else the two digits. -/
def Obligations.LdblkLoadsBlockOrFaults : Prop :=
  ∀ (vd : VReg) (addr : Imm16) (s : State),
    encode (.ldblk vd addr) = formatI 0x42 (vregField vd) 0 addr ∧
    (addr.toNat % 2 = 1 →
      ∃ t, exec (.ldblk vd addr) s = .next t ∧ Faults (encode (.ldblk vd addr)) .textMisaligned s t) ∧
    (addr.toNat % 2 = 0 → s.textLength < addr.toNat + 2 →
      ∃ t, exec (.ldblk vd addr) s = .next t ∧ Faults (encode (.ldblk vd addr)) .textRange s t) ∧
    (addr.toNat % 2 = 0 → addr.toNat + 2 ≤ s.textLength → s.tlenOk →
      ¬ (LetterCode (byteAt s addr.toNat).toNat s.modulus ∧ LetterCode (byteAt s (addr.toNat + 1)).toNat s.modulus) →
      ∃ t, exec (.ldblk vd addr) s = .next t ∧ Faults (encode (.ldblk vd addr)) .invalidSymbol s t) ∧
    (addr.toNat % 2 = 0 → addr.toNat + 2 ≤ s.textLength → s.tlenOk →
      LetterCode (byteAt s addr.toNat).toNat s.modulus → LetterCode (byteAt s (addr.toNat + 1)).toNat s.modulus →
      ∃ t d0 d1, exec (.ldblk vd addr) s = .next t ∧ WritesV s t vd [d0, d1] ∧
        d0.toInt = (byteAt s addr.toNat).toNat - 65 ∧ d1.toInt = (byteAt s (addr.toNat + 1)).toNat - 65)

/-- R171 with R64, R170: range, then digits, else the letters at consecutive addresses and no other byte. -/
def Obligations.StblkStoresBlockOrFaults : Prop :=
  ∀ (va : VReg) (addr : Imm16) (s : State),
    encode (.stblk va addr) = formatI 0x43 0 (vregField va) addr ∧
    (s.textLength < addr.toNat + (s.getV va).length →
      ∃ t, exec (.stblk va addr) s = .next t ∧ Faults (encode (.stblk va addr)) .textRange s t) ∧
    (addr.toNat + (s.getV va).length ≤ s.textLength → (∃ e ∈ s.getV va, ¬ DigitValue e.toInt s.modulus) →
      ∃ t, exec (.stblk va addr) s = .next t ∧ Faults (encode (.stblk va addr)) .invalidSymbol s t) ∧
    (addr.toNat + (s.getV va).length ≤ s.textLength → s.tlenOk → (∀ e ∈ s.getV va, DigitValue e.toInt s.modulus) →
      ∃ t, exec (.stblk va addr) s = .next t ∧ SameX s t ∧ SameV s t ∧ SameK s t ∧ SameControl s t ∧
        t.cix = s.cix + 1 ∧
        (∀ (e : Nat) (h : e < (s.getV va).length),
          ((byteAt t (addr.toNat + e)).toNat : Int) = (s.getV va)[e].toInt + 65) ∧
        ∀ a : Nat, (a < addr.toNat ∨ addr.toNat + (s.getV va).length ≤ a) → byteAt t a = byteAt s a)

/-! ## The integer laws -/

/-- R120. -/
def Obligations.NormIsTheUniqueResidue : Prop :=
  ∀ (v : Int) (m : Nat), 1 ≤ m →
    0 ≤ normMod v m ∧ normMod v m < m ∧ (m : Int) ∣ v - normMod v m ∧
    (∀ r : Int, 0 ≤ r → r < m → (m : Int) ∣ v - r → r = normMod v m) ∧
    normMod v m = (v % m + m) % m ∧
    normMod 0 m = 0 ∧ (0 ≤ v → v < m → normMod v m = v) ∧ normMod m m = 0 ∧ normMod (-1) m = m - 1 ∧ normMod (-m) m = 0 ∧
    normMod v 1 = 0

/-- R123: the formula under the other convention of the inner operator, the remainder that takes the sign of the
dividend, and the range of the intermediate under both. -/
def Obligations.NormFormulaUnderBothConventions : Prop :=
  ∀ (v : Int) (m : Nat), 1 ≤ m → m ≤ 32767 →
    normMod v m = (Int.tmod v m + m) % m ∧ normMod v m = Int.tmod (Int.tmod v m + m) m ∧ normMod v m = (v % m + m) % m ∧
    0 < Int.tmod v m + m ∧ Int.tmod v m + m < 2 * m ∧ 0 < v % m + m ∧ v % m + m < 2 * m ∧ (2 * m : Int) ≤ 65534

/-- R152: the scan finds an inverse exactly when there is one; for m ≥ 2 that is gcd = 1 and it is unique; for m = 1
there is none; a trial product of a determinant always fits. -/
def Obligations.ScanFindsTheModularInverse : Prop :=
  (∀ (dt : Int) (m : Nat), 2 ≤ m →
    (Int.gcd dt m = 1 → ∃ r : Int, determinantInverse dt m = .ok r ∧ 0 ≤ r ∧ r < m ∧ normMod (dt * r) m = 1) ∧
    (Int.gcd dt m ≠ 1 → determinantInverse dt m = .error (.raise .noModularInverse)) ∧
    ∀ r r' : Int, 0 ≤ r → r < m → 0 ≤ r' → r' < m → normMod (dt * r) m = 1 → normMod (dt * r') m = 1 → r = r') ∧
  (∀ dt : Int, determinantInverse dt 1 = .error (.raise .noModularInverse)) ∧
  ∀ (dt r : Int) (m : Nat), m ≤ 32767 → 0 ≤ dt → dt < m → 0 ≤ r → r < m → fits32 (dt * r) = true

/-- R122, consequence (b): with canonical operand entries no command raises ArithOverflow, whatever the other registers
hold. -/
def Obligations.CanonicalEntriesNeverOverflow : Prop :=
  ∀ (i : Instr) (s : State), s.modOk → CanonicalOperands i s →
    ∀ t, exec i s = .next t → ¬ Faults (encode i) .arithOverflow s t

/-! ## The laws of the source document -/

/-- R157: the double inverse; a key with canonical entries comes back as it is. -/
def Obligations.DoubleInverseGivesBackTheKey : Prop :=
  ∀ (k0 k1 k2 : KReg) (s s1 s2 : State), s.modOk →
    Retires (.inv k1 (.key k0)) s s1 → Retires (.inv k2 (.key k1)) s1 s2 →
    IsResidue (s2.getK k2).a (s.getK k0).a.toInt s.modulus ∧ IsResidue (s2.getK k2).b (s.getK k0).b.toInt s.modulus ∧
    IsResidue (s2.getK k2).c (s.getK k0).c.toInt s.modulus ∧ IsResidue (s2.getK k2).d (s.getK k0).d.toInt s.modulus ∧
    ((∀ (r c : Nat) (w : Word), matrixEntry (.key (s.getK k0)) r c = some w → 0 ≤ w.toInt ∧ w.toInt < s.modulus) →
      s2.getK k2 = s.getK k0)

/-- R158: decrypting the encryption of a block gives the block, modulo MOD, whichever registers are used. -/
def Obligations.DecryptionUndoesEncryption : Prop :=
  ∀ (v0 v1 v2 : VReg) (k0 k1 : KReg) (p q : Word) (s s1 s2 s3 s4 s5 : State), s.modOk → s.getV v0 = [p, q] →
    Retires (.mul v1 (.vec v0) (.key k0)) s s1 → Retires (.red (.vec v1)) s1 s2 →
    Retires (.inv k1 (.key k0)) s2 s3 →
    Retires (.mul v2 (.vec v1) (.key k1)) s3 s4 → Retires (.red (.vec v2)) s4 s5 →
    ∃ p' q', s5.getV v2 = [p', q'] ∧ IsResidue p' p.toInt s.modulus ∧ IsResidue q' q.toInt s.modulus

/-- R172: the codec round trip, in both directions; in the first, `u` is the state in which the block is stored, whatever
happened between that kept the vector, MOD and TLEN. -/
def Obligations.CodecRoundTrip : Prop :=
  (∀ (vd : VReg) (addr : Imm16) (s s1 u : State), s.tlenOk → Retires (.ldblk vd addr) s s1 →
    u.getV vd = s1.getV vd → u.mod = s1.mod → u.tlen = s1.tlen →
    ∃ s2, Retires (.stblk vd addr) u s2 ∧ byteAt s2 addr.toNat = byteAt s addr.toNat ∧
      byteAt s2 (addr.toNat + 1) = byteAt s (addr.toNat + 1)) ∧
  ∀ (va vd : VReg) (addr : Imm16) (s s1 : State), s.tlenOk → addr.toNat % 2 = 0 → (s.getV va).length = 2 →
    Retires (.stblk va addr) s s1 →
    ∃ s2, Retires (.ldblk vd addr) s1 s2 ∧ s2.getV vd = s.getV va

/-- R165: the two maps between letters and digits are inverse to each other. -/
def Obligations.LettersAndDigitsAreInverse : Prop :=
  ∀ (xd xs xe : XReg) (s s1 : State),
    (Retires (.l2d xd xs) s s1 → ∃ s2, Retires (.d2l xe xd) s1 s2 ∧ s2.getX xe = s.getX xs) ∧
    (Retires (.d2l xd xs) s s1 → ∃ s2, Retires (.l2d xe xd) s1 s2 ∧ s2.getX xe = s.getX xs)

/-- R156: DET, DETINV and INV depend on the fields of the source register and on MOD alone: the result of one that retires
and the cause of one that faults are the same in every state with the same fields and the same MOD. -/
def Obligations.DeterminantCommandsReadOnlyKeyAndModulus : Prop :=
  ∀ (xd : XReg) (kd j : KReg) (s s' : State), s.getK j = s'.getK j → s.mod = s'.mod →
    (∀ t, Retires (.det xd (.key j)) s t → ∃ t', Retires (.det xd (.key j)) s' t' ∧ t'.getX xd = t.getX xd) ∧
    (∀ t, Retires (.detinv xd (.key j)) s t → ∃ t', Retires (.detinv xd (.key j)) s' t' ∧ t'.getX xd = t.getX xd) ∧
    (∀ t, Retires (.inv kd (.key j)) s t → ∃ t', Retires (.inv kd (.key j)) s' t' ∧ t'.getK kd = t.getK kd) ∧
    ∀ i ∈ [Instr.det xd (.key j), .detinv xd (.key j), .inv kd (.key j)], ∀ (t : State) (c : Cause),
      exec i s = .next t → Faults (encode i) c s t → ∃ t', exec i s' = .next t' ∧ Faults (encode i) c s' t'

/-- R187, R104: LI then LIH load any 32-bit value (pseudo-instruction LI32). -/
def Obligations.LiThenLihLoadAnyValue : Prop :=
  ∀ (xd : XReg) (v : Word) (s : State),
    ∃ i1 i2 s1 s2, expandLi32 xd v = [i1, i2] ∧ exec i1 s = .next s1 ∧ exec i2 s1 = .next s2 ∧
      s2.getX xd = v ∧ (∀ r : XReg, r ≠ xd → s2.getX r = s.getX r) ∧ SameV s s2 ∧ SameK s s2 ∧ SameText s s2 ∧
      SameControl s s2 ∧ s2.cix = s.cix + 2

/-! ## Encoding -/

/-- R90 to R97: the decoder reads back every well-formed command from its word. -/
def Obligations.DecodeOfEncode : Prop :=
  ∀ i : Instr, i.wellFormed = true → decode (encode i) = .ok i

/-- R97, R99: a word that decodes is the word of the command it decodes to, and that command is well formed. -/
def Obligations.EncodeOfDecode : Prop :=
  ∀ (w : Word) (i : Instr), decode w = .ok i → encode i = w ∧ i.wellFormed = true

/-- R97 to R101: a word is a command exactly when it selects a row of the opcode map by mask, match and constraint. -/
def Obligations.WordsDecodeExactlyWhenTheySelectARow : Prop :=
  ∀ w : Word, (∃ i, decode w = .ok i) ↔ ∃ r ∈ opcodeMap, selects w r = true

/-- The worked encodings of 30_encoding.md section 6, a few of them. -/
def Obligations.WorkedEncodingsDecode : Prop :=
  decode 0x0120001A = .ok (.li 1 26) ∧ decode 0x05040000 = .ok (.crw 0 1) ∧ decode 0x20220000 = .ok (.mul 1 (.vec 0) (.key 0)) ∧
    decode 0x32B00000 = .ok (.inv 1 (.key 0)) ∧ decode 0x43040004 = .ok (.stblk 1 4)

/-! ## Faults, the faulted state, reset -/

/-- R10, R39, R202, R203: a command either retires, CIX advances and the fault record keeps its value, or it raises one
fault and nothing but the record changes. -/
def Obligations.CommandsRetireOrFaultPrecisely : Prop :=
  ∀ (i : Instr) (s t : State), exec i s = .next t →
    (t.cix = s.cix + 1 ∧ t.status = s.status ∧ t.cause = s.cause ∧ t.fcix = s.fcix ∧ t.fcmd = s.fcmd) ∨
      ∃ c, Faults (encode i) c s t

/-- R241, R101: with a legal TLEN every term of the command type, also one that is no command (log 7), ends in a next state
of the machine. -/
def Obligations.EveryCommandEndsInANextState : Prop :=
  ∀ (i : Instr) (s : State), s.tlenOk → ∃ t, exec i s = .next t

/-- R204: while FAULT = 1 every command is discarded and no state changes, however many are issued. -/
def Obligations.FaultedUnitDiscardsCommands : Prop :=
  ∀ (ws : List Word) (s : State), s.faulted = true → performAll (commandActions ws) s = .next s

/-- R97, R224: a word that is no command enters IllegalCommand. -/
def Obligations.IllegalWordsEnterIllegalCommand : Prop :=
  ∀ (w : Word) (e : DecodeError) (s : State), s.faulted = false → decode w = .error e →
    ∃ t, perform (commandAction w) s = .next t ∧ Faults w .illegalCommand s t

/-- R205: only a reset clears STATUS.FAULT. -/
def Obligations.OnlyAResetClearsTheFault : Prop :=
  ∀ (a : HostAction) (s t : State), s.faulted = true → perform a s = .next t → t.faulted = false →
    a = .hardReset ∨ ∃ v : Word, v.getLsbD 0 = true ∧ a = .write .word 0x00004 v

/-- R72, R42, R230: a write to CTRL with bit 0 = 1 gives the soft reset column, with bit 0 = 0 it does nothing. -/
def Obligations.CtrlWritePerformsSoftReset : Prop :=
  ∀ (v : Word) (s : State),
    (v.getLsbD 0 = false → perform (.write .word 0x00004 v) s = .next s) ∧
    (v.getLsbD 0 = true → ∃ t, perform (.write .word 0x00004 v) s = .next t ∧
      (∀ r, t.getX r = 0) ∧ (∀ j, t.getV j = []) ∧ (∀ j, t.getK j = ⟨0, 0, 0, 0⟩) ∧
      t.mod = 26 ∧ t.tlen = 0 ∧ t.status = 0 ∧ t.cause = 0 ∧ t.fcix = 0 ∧ t.fcmd = 0 ∧ t.cix = 0 ∧ SameText s t)

/-- R42, R230, R231: a hard reset gives every register its reset value, in every state. Nothing is claimed of text memory
(U5). -/
def Obligations.HardResetGivesResetRegisters : Prop :=
  ∀ s : State, ∃ t, perform .hardReset s = .next t ∧
    (∀ r, t.getX r = 0) ∧ (∀ j, t.getV j = []) ∧ (∀ j, t.getK j = ⟨0, 0, 0, 0⟩) ∧
    t.mod = 26 ∧ t.tlen = 0 ∧ t.status = 0 ∧ t.cause = 0 ∧ t.fcix = 0 ∧ t.fcmd = 0 ∧ t.cix = 0

/-- R42, R231: the registers of the state after reset. -/
def Obligations.ResetStateHoldsTheResetValues : Prop :=
  (∀ r, State.reset.getX r = 0) ∧ (∀ j, State.reset.getV j = []) ∧ (∀ j, State.reset.getK j = ⟨0, 0, 0, 0⟩) ∧
    State.reset.mod = 26 ∧ State.reset.tlen = 0 ∧ State.reset.status = 0 ∧ State.reset.cause = 0 ∧
    State.reset.fcix = 0 ∧ State.reset.fcmd = 0 ∧ State.reset.cix = 0

/-- R232: what the commands do right after a reset of either kind, whatever text memory holds. -/
def Obligations.CommandsRightAfterReset : Prop :=
  ∀ s s0 : State, (s = softReset s0 ∨ s = hardReset s0) →
    (∀ (xd : XReg) (j : KReg), ∃ t, exec (.det xd (.key j)) s = .next t ∧ WritesX s t xd 0) ∧
    (∀ (xd : XReg) (j : KReg), ∃ t, exec (.detinv xd (.key j)) s = .next t ∧
      Faults (encode (.detinv xd (.key j))) .noModularInverse s t) ∧
    (∀ (vd : VReg) (addr : Imm16), ∃ t, exec (.ldblk vd addr) s = .next t ∧
      Faults (encode (.ldblk vd addr)) (if addr.toNat % 2 = 1 then .textMisaligned else .textRange) s t) ∧
    (∀ va : VReg, ∃ t, exec (.stblk va 0) s = .next t ∧ t.cix = s.cix + 1 ∧ SameText s t) ∧
    (∀ (va : VReg) (addr : Imm16), addr ≠ 0 → ∃ t, exec (.stblk va addr) s = .next t ∧
      Faults (encode (.stblk va addr)) .textRange s t) ∧
    (∀ (vd j : VReg) (mb : MReg), ∃ t, exec (.mul vd (.vec j) mb) s = .next t ∧
      Faults (encode (.mul vd (.vec j) mb)) .dimensionMismatch s t)

/-! ## The machine: steps, runs, the invariant -/

/-- A step runs the decoded command (R71, R97): a command word that the host writes next, in a unit that is not faulted,
is executed by the step. The field `input` is the model's own (log 1). -/
def Obligations.StepRunsTheDecodedCommand : Prop :=
  ∀ (w : Word) (i : Instr) (rest : List HostAction) (s : State),
    s.input = .write .word 0x00000 w :: rest → s.faulted = false → decode w = .ok i →
    step s = exec i { s with input := rest }

/-- A step performs the host's next action (R75), and with none left the unit is idle and keeps all state (R217). The
field `input` is the model's own (logs 1 and 2). -/
def Obligations.StepPerformsTheNextAction : Prop :=
  ∀ s : State, (∀ a rest, s.input = a :: rest → step s = perform a { s with input := rest }) ∧
    (s.input = [] → step s = .next s)

/-- R24, R33 to R37: every step keeps the invariant of the reachable states; its clause about the form of text memory is the
model's own (log 3). -/
def Obligations.EveryStepKeepsTheStateLegal : Prop :=
  ∀ s t : State, s.Legal → step s = .next t → t.Legal

/-- The state after reset holds the invariant. -/
def Obligations.ResetStateIsLegal : Prop := State.reset.Legal

/-- A legal state never leads a step into the model's own fault (log 4); a step is refused only for a window access of U6
(log 5). Both stops are the model's choice. -/
def Obligations.LegalStatesStepOrRefuseAnUndefinedAccess : Prop :=
  ∀ s : State, s.Legal → (∃ t, step s = .next t) ∨
    (step s = .refused .windowAccess ∧
      ∃ rest width offset, accessTarget width offset = .undefinedAccess ∧
        (s.input = .read width offset :: rest ∨ ∃ v, s.input = .write width offset v :: rest))

/-- R219, R39: a run of commands that ended well has advanced CIX by the number of commands. -/
def Obligations.WellEndedRunCountsItsCommands : Prop :=
  ∀ (ws : List Word) (s t : State), s.faulted = false → performAll (commandActions ws) s = .next t → t.EndedWell →
    t.cix = s.cix + BitVec.ofNat 32 ws.length

/-- R219, R202 to R204: in a run of commands that ended in a fault, FCIX says how many commands retired before the
faulting one, FCMD is that command's word, and the registers are as those commands left them. -/
def Obligations.FaultedRunRecordsTheFaultingCommand : Prop :=
  ∀ (ws : List Word) (s t : State), s.faulted = false → performAll (commandActions ws) s = .next t → t.faulted = true →
    ∃ (n : Nat) (h : n < ws.length) (u : State), performAll (commandActions (ws.take n)) s = .next u ∧ u.EndedWell ∧
      t.fcix = s.cix + BitVec.ofNat 32 n ∧ t.fcmd = ws[n] ∧ t.cix = t.fcix ∧
      SameX u t ∧ SameV u t ∧ SameK u t ∧ SameText u t ∧ t.mod = u.mod ∧ t.tlen = u.tlen

/-- R33, R34: of all commands only CRW with number 0 writes MOD and only CRW with number 1 writes TLEN. -/
def Obligations.OnlyCrwWritesModAndTlen : Prop :=
  ∀ (i : Instr) (s t : State), exec i s = .next t →
    ((∀ xs, i ≠ .crw 0 xs) → t.mod = s.mod) ∧ ((∀ xs, i ≠ .crw 1 xs) → t.tlen = s.tlen)

/-- R22, R24, R26, R171: which commands write scalar registers, vector registers, key registers and text memory. -/
def Obligations.CommandsWriteOnlyTheirOwnKindOfRegister : Prop :=
  ∀ (i : Instr) (s t : State), exec i s = .next t →
    (match i with
     | .li _ _ | .lih _ _ | .crr _ _ | .norm _ _ | .get _ _ _ _ | .width _ _ | .height _ _ | .det _ _
     | .detinv _ _ | .l2d _ _ | .d2l _ _ => SameV s t ∧ SameK s t ∧ SameText s t
     | .vnew _ _ | .mul _ _ _ | .ldblk _ _ | .set (.vec _) _ _ _ | .red (.vec _) => SameX s t ∧ SameK s t ∧ SameText s t
     | .inv _ _ | .set (.key _) _ _ _ | .red (.key _) => SameX s t ∧ SameV s t ∧ SameText s t
     | .stblk _ _ => SameX s t ∧ SameV s t ∧ SameK s t
     | .nop | .crw _ _ => SameX s t ∧ SameV s t ∧ SameK s t ∧ SameText s t)

/-! ## Matrices and text memory -/

/-- R26, R28 to R30: the layout of the two variants. -/
def Obligations.EntriesFollowTheLayout : Prop :=
  (∀ k : KeyMatrix, matrixEntry (.key k) 0 0 = some k.a ∧ matrixEntry (.key k) 0 1 = some k.b ∧
    matrixEntry (.key k) 1 0 = some k.c ∧ matrixEntry (.key k) 1 1 = some k.d ∧
    (∀ r c, (2 ≤ r ∨ 2 ≤ c) → matrixEntry (.key k) r c = none) ∧
    matrixWidth (.key k) = 2 ∧ matrixHeight (.key k) = 2) ∧
  ∀ es : List Word, (∀ c (h : c < es.length), matrixEntry (.vec es) 0 c = some es[c]) ∧
    (∀ r c, (1 ≤ r ∨ es.length ≤ c) → matrixEntry (.vec es) r c = none) ∧
    matrixWidth (.vec es) = es.length ∧ matrixHeight (.vec es) = 1

/-- R62, R63, R76: a read returns the latest write to its byte, a write changes one byte, and outside TMEM there is no
access: the canonical form (log 3) and the fault (log 4) are the model's own. -/
def Obligations.TextMemoryReadsTheLatestWrite : Prop :=
  ∀ (s : State) (a : Nat) (w : Byte),
    (a < 4096 → ∃ t, memWrite s a w = .ok t ∧ memRead t a = .ok w ∧ (∀ b, b ≠ a → byteAt t b = byteAt s b) ∧
      (memWf s.tmem = true → memWf t.tmem = true)) ∧
    (4096 ≤ a → memWrite s a w = .error (.outside .tmemAddress) ∧ memRead s a = .error (.outside .tmemAddress))

/-- The canonical form of text memory (log 3): equal written bytes, equal data. -/
def Obligations.CanonicalMemoriesWithEqualBytesAreEqual : Prop :=
  ∀ m n : Memory, memWf m = true → memWf n = true → (∀ a, memGet m a = memGet n a) → m = n

/-! ## The host window -/

/-- R69, R73: what a word read of each register location returns. -/
def Obligations.WindowReadsTheRegisters : Prop :=
  ∀ s : State,
    windowRead s .word 0x00040 = some s.mod ∧ windowRead s .word 0x00044 = some s.tlen ∧
    windowRead s .word 0x00048 = some (if s.faulted then 1 else 0) ∧ windowRead s .word 0x0004C = some s.cause ∧
    windowRead s .word 0x00050 = some s.fcix ∧ windowRead s .word 0x00054 = some s.fcmd ∧
    windowRead s .word 0x00058 = some s.cix ∧
    (∀ r : XReg, windowRead s .word (BitVec.ofNat 17 (0x00080 + 4 * r.val)) = some (s.getX r)) ∧
    (∀ (j : VReg) (e : Fin 8), windowRead s .word (BitVec.ofNat 17 (0x00100 + 0x40 * j.val + 4 * e.val)) =
      some (if h : e.val < (s.getV j).length then (s.getV j)[e.val] else 0)) ∧
    (∀ j : VReg, windowRead s .word (BitVec.ofNat 17 (0x00120 + 0x40 * j.val)) =
      some (BitVec.ofNat 32 (s.getV j).length)) ∧
    (∀ j : KReg, windowRead s .word (BitVec.ofNat 17 (0x00200 + 0x10 * j.val)) = some (s.getK j).a ∧
      windowRead s .word (BitVec.ofNat 17 (0x00204 + 0x10 * j.val)) = some (s.getK j).b ∧
      windowRead s .word (BitVec.ofNat 17 (0x00208 + 0x10 * j.val)) = some (s.getK j).c ∧
      windowRead s .word (BitVec.ofNat 17 (0x0020C + 0x10 * j.val)) = some (s.getK j).d)

/-- R73, R70: a window read changes nothing of the unit; an aligned word write to a read-only location is ignored; and of
all window writes only those to CMD, CTRL and text memory change anything. The field `readData` is the model's own
(log 6). -/
def Obligations.WindowAccessesLeaveTheRegisters : Prop :=
  (∀ (width : BusWidth) (offset : BitVec 17) (s t : State), perform (.read width offset) s = .next t →
    windowRead s width offset = t.readData ∧ t = { s with readData := t.readData }) ∧
  (∀ (offset : BitVec 17) (v : Word) (s : State), offset.toNat % 4 = 0 → RegisterOffset offset.toNat →
    perform (.write .word offset v) s = .next s) ∧
  ∀ (width : BusWidth) (offset : BitVec 17) (v : Word) (s t : State), 8 ≤ offset.toNat →
    (offset.toNat < 0x10000 ∨ 0x11000 ≤ offset.toNat) → perform (.write width offset v) s = .next t → t = s

/-- R70: reads of CMD and CTRL give 0; so do byte reads of unassigned offsets and aligned word reads of four of them, and
writes there are ignored. -/
def Obligations.UnassignedOffsetsReadZero : Prop :=
  ∀ s : State, windowRead s .word 0x00000 = some 0 ∧ windowRead s .word 0x00004 = some 0 ∧
    (∀ (offset : BitVec 17) (v : Word), ¬ AssignedOffset offset.toNat →
      windowRead s .byte offset = some 0 ∧ perform (.write .byte offset v) s = .next s) ∧
    ∀ (offset : BitVec 17) (v : Word), offset.toNat % 4 = 0 → (∀ i < 4, ¬ AssignedOffset (offset.toNat + i)) →
      windowRead s .word offset = some 0 ∧ perform (.write .word offset v) s = .next s

/-- R74, R70: text memory through the window, in any state, faulted or not, whatever TLEN is. -/
def Obligations.WindowReadsAndWritesText : Prop :=
  ∀ (s : State) (a : Nat) (v : Word), a < 4096 →
    windowRead s .byte (BitVec.ofNat 17 (0x10000 + a)) = some ((byteAt s a).setWidth 32) ∧
    ∃ t, perform (.write .byte (BitVec.ofNat 17 (0x10000 + a)) v) s = .next t ∧
      byteAt t a = v.setWidth 8 ∧ (∀ b, b ≠ a → byteAt t b = byteAt s b) ∧
      SameX s t ∧ SameV s t ∧ SameK s t ∧ SameControl s t ∧ t.cix = s.cix

/-- An access of another width or alignment than the location's is refused by name: the model's choice where R70 and U6
leave the access undefined and ask for a refusal (log 5). -/
def Obligations.UndefinedWindowAccessesAreRefused : Prop :=
  ∀ (s : State) (offset : BitVec 17) (v : Word), AssignedOffset offset.toNat →
    (offset.toNat < 0x10000 → perform (.read .byte offset) s = .refused .windowAccess ∧
      perform (.write .byte offset v) s = .refused .windowAccess) ∧
    (offset.toNat < 0x10000 → offset.toNat % 4 ≠ 0 → perform (.read .word offset) s = .refused .windowAccess ∧
      perform (.write .word offset v) s = .refused .windowAccess) ∧
    (0x10000 ≤ offset.toNat → perform (.read .word offset) s = .refused .windowAccess ∧
      perform (.write .word offset v) s = .refused .windowAccess) ∧
    perform (.read .half offset) s = .refused .windowAccess ∧
    perform (.write .half offset v) s = .refused .windowAccess
end

