-- ==== Sys2Proof/Laws/State.lean ====
section
/-! SUPPORT. One lemma per field per update of the state, all true by unfolding, so that no later proof opens a record
update; and the registers and bytes read after an update. -/

namespace Sys2Proof.Machine

variable (s : State)

/-! ## State.setX -/

@[simp] theorem State.setX_x (r : XReg) (w : Word) : (s.setX r w).x = s.x.set r w := rfl
@[simp] theorem State.setX_v (r : XReg) (w : Word) : (s.setX r w).v = s.v := rfl
@[simp] theorem State.setX_k (r : XReg) (w : Word) : (s.setX r w).k = s.k := rfl
@[simp] theorem State.setX_mod (r : XReg) (w : Word) : (s.setX r w).mod = s.mod := rfl
@[simp] theorem State.setX_tlen (r : XReg) (w : Word) : (s.setX r w).tlen = s.tlen := rfl
@[simp] theorem State.setX_status (r : XReg) (w : Word) : (s.setX r w).status = s.status := rfl
@[simp] theorem State.setX_cause (r : XReg) (w : Word) : (s.setX r w).cause = s.cause := rfl
@[simp] theorem State.setX_fcix (r : XReg) (w : Word) : (s.setX r w).fcix = s.fcix := rfl
@[simp] theorem State.setX_fcmd (r : XReg) (w : Word) : (s.setX r w).fcmd = s.fcmd := rfl
@[simp] theorem State.setX_cix (r : XReg) (w : Word) : (s.setX r w).cix = s.cix := rfl
@[simp] theorem State.setX_tmem (r : XReg) (w : Word) : (s.setX r w).tmem = s.tmem := rfl
@[simp] theorem State.setX_powerOns (r : XReg) (w : Word) : (s.setX r w).powerOns = s.powerOns := rfl
@[simp] theorem State.setX_input (r : XReg) (w : Word) : (s.setX r w).input = s.input := rfl
@[simp] theorem State.setX_readData (r : XReg) (w : Word) : (s.setX r w).readData = s.readData := rfl

/-! ## State.setV -/

@[simp] theorem State.setV_x (j : VReg) (es : List Word) : (s.setV j es).x = s.x := rfl
@[simp] theorem State.setV_v (j : VReg) (es : List Word) : (s.setV j es).v = s.v.set j es := rfl
@[simp] theorem State.setV_k (j : VReg) (es : List Word) : (s.setV j es).k = s.k := rfl
@[simp] theorem State.setV_mod (j : VReg) (es : List Word) : (s.setV j es).mod = s.mod := rfl
@[simp] theorem State.setV_tlen (j : VReg) (es : List Word) : (s.setV j es).tlen = s.tlen := rfl
@[simp] theorem State.setV_status (j : VReg) (es : List Word) : (s.setV j es).status = s.status := rfl
@[simp] theorem State.setV_cause (j : VReg) (es : List Word) : (s.setV j es).cause = s.cause := rfl
@[simp] theorem State.setV_fcix (j : VReg) (es : List Word) : (s.setV j es).fcix = s.fcix := rfl
@[simp] theorem State.setV_fcmd (j : VReg) (es : List Word) : (s.setV j es).fcmd = s.fcmd := rfl
@[simp] theorem State.setV_cix (j : VReg) (es : List Word) : (s.setV j es).cix = s.cix := rfl
@[simp] theorem State.setV_tmem (j : VReg) (es : List Word) : (s.setV j es).tmem = s.tmem := rfl
@[simp] theorem State.setV_powerOns (j : VReg) (es : List Word) : (s.setV j es).powerOns = s.powerOns := rfl
@[simp] theorem State.setV_input (j : VReg) (es : List Word) : (s.setV j es).input = s.input := rfl
@[simp] theorem State.setV_readData (j : VReg) (es : List Word) : (s.setV j es).readData = s.readData := rfl

/-! ## State.setK -/

@[simp] theorem State.setK_x (j : KReg) (m : KeyMatrix) : (s.setK j m).x = s.x := rfl
@[simp] theorem State.setK_v (j : KReg) (m : KeyMatrix) : (s.setK j m).v = s.v := rfl
@[simp] theorem State.setK_k (j : KReg) (m : KeyMatrix) : (s.setK j m).k = s.k.set j m := rfl
@[simp] theorem State.setK_mod (j : KReg) (m : KeyMatrix) : (s.setK j m).mod = s.mod := rfl
@[simp] theorem State.setK_tlen (j : KReg) (m : KeyMatrix) : (s.setK j m).tlen = s.tlen := rfl
@[simp] theorem State.setK_status (j : KReg) (m : KeyMatrix) : (s.setK j m).status = s.status := rfl
@[simp] theorem State.setK_cause (j : KReg) (m : KeyMatrix) : (s.setK j m).cause = s.cause := rfl
@[simp] theorem State.setK_fcix (j : KReg) (m : KeyMatrix) : (s.setK j m).fcix = s.fcix := rfl
@[simp] theorem State.setK_fcmd (j : KReg) (m : KeyMatrix) : (s.setK j m).fcmd = s.fcmd := rfl
@[simp] theorem State.setK_cix (j : KReg) (m : KeyMatrix) : (s.setK j m).cix = s.cix := rfl
@[simp] theorem State.setK_tmem (j : KReg) (m : KeyMatrix) : (s.setK j m).tmem = s.tmem := rfl
@[simp] theorem State.setK_powerOns (j : KReg) (m : KeyMatrix) : (s.setK j m).powerOns = s.powerOns := rfl
@[simp] theorem State.setK_input (j : KReg) (m : KeyMatrix) : (s.setK j m).input = s.input := rfl
@[simp] theorem State.setK_readData (j : KReg) (m : KeyMatrix) : (s.setK j m).readData = s.readData := rfl

/-! ## setByte -/

@[simp] theorem setByte_x (a : Nat) (w : Byte) : (setByte s a w).x = s.x := rfl
@[simp] theorem setByte_v (a : Nat) (w : Byte) : (setByte s a w).v = s.v := rfl
@[simp] theorem setByte_k (a : Nat) (w : Byte) : (setByte s a w).k = s.k := rfl
@[simp] theorem setByte_mod (a : Nat) (w : Byte) : (setByte s a w).mod = s.mod := rfl
@[simp] theorem setByte_tlen (a : Nat) (w : Byte) : (setByte s a w).tlen = s.tlen := rfl
@[simp] theorem setByte_status (a : Nat) (w : Byte) : (setByte s a w).status = s.status := rfl
@[simp] theorem setByte_cause (a : Nat) (w : Byte) : (setByte s a w).cause = s.cause := rfl
@[simp] theorem setByte_fcix (a : Nat) (w : Byte) : (setByte s a w).fcix = s.fcix := rfl
@[simp] theorem setByte_fcmd (a : Nat) (w : Byte) : (setByte s a w).fcmd = s.fcmd := rfl
@[simp] theorem setByte_cix (a : Nat) (w : Byte) : (setByte s a w).cix = s.cix := rfl
@[simp] theorem setByte_tmem (a : Nat) (w : Byte) : (setByte s a w).tmem = memSet s.tmem a w := rfl
@[simp] theorem setByte_powerOns (a : Nat) (w : Byte) : (setByte s a w).powerOns = s.powerOns := rfl
@[simp] theorem setByte_input (a : Nat) (w : Byte) : (setByte s a w).input = s.input := rfl
@[simp] theorem setByte_readData (a : Nat) (w : Byte) : (setByte s a w).readData = s.readData := rfl

/-! ## retire -/

@[simp] theorem retire_x : (retire s).x = s.x := rfl
@[simp] theorem retire_v : (retire s).v = s.v := rfl
@[simp] theorem retire_k : (retire s).k = s.k := rfl
@[simp] theorem retire_mod : (retire s).mod = s.mod := rfl
@[simp] theorem retire_tlen : (retire s).tlen = s.tlen := rfl
@[simp] theorem retire_status : (retire s).status = s.status := rfl
@[simp] theorem retire_cause : (retire s).cause = s.cause := rfl
@[simp] theorem retire_fcix : (retire s).fcix = s.fcix := rfl
@[simp] theorem retire_fcmd : (retire s).fcmd = s.fcmd := rfl
@[simp] theorem retire_cix : (retire s).cix = s.cix + 1 := rfl
@[simp] theorem retire_tmem : (retire s).tmem = s.tmem := rfl
@[simp] theorem retire_powerOns : (retire s).powerOns = s.powerOns := rfl
@[simp] theorem retire_input : (retire s).input = s.input := rfl
@[simp] theorem retire_readData : (retire s).readData = s.readData := rfl

/-! ## enterFault -/

@[simp] theorem enterFault_x (c : Cause) (w : Word) : (enterFault c w s).x = s.x := rfl
@[simp] theorem enterFault_v (c : Cause) (w : Word) : (enterFault c w s).v = s.v := rfl
@[simp] theorem enterFault_k (c : Cause) (w : Word) : (enterFault c w s).k = s.k := rfl
@[simp] theorem enterFault_mod (c : Cause) (w : Word) : (enterFault c w s).mod = s.mod := rfl
@[simp] theorem enterFault_tlen (c : Cause) (w : Word) : (enterFault c w s).tlen = s.tlen := rfl
@[simp] theorem enterFault_status (c : Cause) (w : Word) : (enterFault c w s).status = s.status ||| 1#32 := rfl
@[simp] theorem enterFault_cause (c : Cause) (w : Word) : (enterFault c w s).cause = causeCode c := rfl
@[simp] theorem enterFault_fcix (c : Cause) (w : Word) : (enterFault c w s).fcix = s.cix := rfl
@[simp] theorem enterFault_fcmd (c : Cause) (w : Word) : (enterFault c w s).fcmd = w := rfl
@[simp] theorem enterFault_cix (c : Cause) (w : Word) : (enterFault c w s).cix = s.cix := rfl
@[simp] theorem enterFault_tmem (c : Cause) (w : Word) : (enterFault c w s).tmem = s.tmem := rfl
@[simp] theorem enterFault_powerOns (c : Cause) (w : Word) : (enterFault c w s).powerOns = s.powerOns := rfl
@[simp] theorem enterFault_input (c : Cause) (w : Word) : (enterFault c w s).input = s.input := rfl
@[simp] theorem enterFault_readData (c : Cause) (w : Word) : (enterFault c w s).readData = s.readData := rfl

/-! ## softReset -/

@[simp] theorem softReset_x : (softReset s).x = State.reset.x := rfl
@[simp] theorem softReset_v : (softReset s).v = State.reset.v := rfl
@[simp] theorem softReset_k : (softReset s).k = State.reset.k := rfl
@[simp] theorem softReset_mod : (softReset s).mod = State.reset.mod := rfl
@[simp] theorem softReset_tlen : (softReset s).tlen = State.reset.tlen := rfl
@[simp] theorem softReset_status : (softReset s).status = State.reset.status := rfl
@[simp] theorem softReset_cause : (softReset s).cause = State.reset.cause := rfl
@[simp] theorem softReset_fcix : (softReset s).fcix = State.reset.fcix := rfl
@[simp] theorem softReset_fcmd : (softReset s).fcmd = State.reset.fcmd := rfl
@[simp] theorem softReset_cix : (softReset s).cix = State.reset.cix := rfl
@[simp] theorem softReset_tmem : (softReset s).tmem = s.tmem := rfl
@[simp] theorem softReset_powerOns : (softReset s).powerOns = s.powerOns := rfl
@[simp] theorem softReset_input : (softReset s).input = s.input := rfl
@[simp] theorem softReset_readData : (softReset s).readData = s.readData := rfl

/-! ## hardReset -/

@[simp] theorem hardReset_x : (hardReset s).x = State.reset.x := rfl
@[simp] theorem hardReset_v : (hardReset s).v = State.reset.v := rfl
@[simp] theorem hardReset_k : (hardReset s).k = State.reset.k := rfl
@[simp] theorem hardReset_mod : (hardReset s).mod = State.reset.mod := rfl
@[simp] theorem hardReset_tlen : (hardReset s).tlen = State.reset.tlen := rfl
@[simp] theorem hardReset_status : (hardReset s).status = State.reset.status := rfl
@[simp] theorem hardReset_cause : (hardReset s).cause = State.reset.cause := rfl
@[simp] theorem hardReset_fcix : (hardReset s).fcix = State.reset.fcix := rfl
@[simp] theorem hardReset_fcmd : (hardReset s).fcmd = State.reset.fcmd := rfl
@[simp] theorem hardReset_cix : (hardReset s).cix = State.reset.cix := rfl
@[simp] theorem hardReset_tmem : (hardReset s).tmem = State.reset.tmem := rfl
@[simp] theorem hardReset_powerOns : (hardReset s).powerOns = s.powerOns + 1 := rfl
@[simp] theorem hardReset_input : (hardReset s).input = s.input := rfl
@[simp] theorem hardReset_readData : (hardReset s).readData = s.readData := rfl

/-! ## The input -/

@[simp] theorem input_update_input (l : List HostAction) : ({ s with input := l } : State).input = l := rfl

/-! ## Derived observations -/

section
variable (r r' : XReg) (j j' : VReg) (i i' : KReg) (w : Word) (es : List Word) (m : KeyMatrix) (a : Nat) (b : Byte)
  (c : Cause) (n : MReg)

theorem getX_setX : (s.setX r w).getX r' = if r' = r then w else s.getX r' := by
  simp [State.getX, Vector.getElem_set, Fin.ext_iff, eq_comm]

theorem getV_setV : (s.setV j es).getV j' = if j' = j then es else s.getV j' := by
  simp [State.getV, Vector.getElem_set, Fin.ext_iff, eq_comm]

theorem getK_setK : (s.setK i m).getK i' = if i' = i then m else s.getK i' := by
  simp [State.getK, Vector.getElem_set, Fin.ext_iff, eq_comm]

@[simp] theorem getX_setX_self : (s.setX r w).getX r = w := by simp [getX_setX]
@[simp] theorem getV_setV_self : (s.setV j es).getV j = es := by simp [getV_setV]
@[simp] theorem getK_setK_self : (s.setK i m).getK i = m := by simp [getK_setK]

theorem getX_setX_of_ne (h : r' ≠ r) : (s.setX r w).getX r' = s.getX r' := by simp [getX_setX, h]
theorem getV_setV_of_ne (h : j' ≠ j) : (s.setV j es).getV j' = s.getV j' := by simp [getV_setV, h]
theorem getK_setK_of_ne (h : i' ≠ i) : (s.setK i m).getK i' = s.getK i' := by simp [getK_setK, h]

@[simp] theorem getX_setV : (s.setV j es).getX r' = s.getX r' := rfl
@[simp] theorem getX_setK : (s.setK i m).getX r' = s.getX r' := rfl
@[simp] theorem getX_setByte : (setByte s a b).getX r' = s.getX r' := rfl
@[simp] theorem getX_retire : (retire s).getX r' = s.getX r' := rfl
@[simp] theorem getX_enterFault : (enterFault c w s).getX r' = s.getX r' := rfl

@[simp] theorem getV_setX : (s.setX r w).getV j' = s.getV j' := rfl
@[simp] theorem getV_setK : (s.setK i m).getV j' = s.getV j' := rfl
@[simp] theorem getV_setByte : (setByte s a b).getV j' = s.getV j' := rfl
@[simp] theorem getV_retire : (retire s).getV j' = s.getV j' := rfl
@[simp] theorem getV_enterFault : (enterFault c w s).getV j' = s.getV j' := rfl

@[simp] theorem getK_setX : (s.setX r w).getK i' = s.getK i' := rfl
@[simp] theorem getK_setV : (s.setV j es).getK i' = s.getK i' := rfl
@[simp] theorem getK_setByte : (setByte s a b).getK i' = s.getK i' := rfl
@[simp] theorem getK_retire : (retire s).getK i' = s.getK i' := rfl
@[simp] theorem getK_enterFault : (enterFault c w s).getK i' = s.getK i' := rfl

@[simp] theorem byteAt_setX : byteAt (s.setX r w) a = byteAt s a := rfl
@[simp] theorem byteAt_setV : byteAt (s.setV j es) a = byteAt s a := rfl
@[simp] theorem byteAt_setK : byteAt (s.setK i m) a = byteAt s a := rfl
@[simp] theorem byteAt_retire : byteAt (retire s) a = byteAt s a := rfl
@[simp] theorem byteAt_enterFault : byteAt (enterFault c w s) a = byteAt s a := rfl

@[simp] theorem modulus_setX : (s.setX r w).modulus = s.modulus := rfl
@[simp] theorem modulus_setV : (s.setV j es).modulus = s.modulus := rfl
@[simp] theorem modulus_setK : (s.setK i m).modulus = s.modulus := rfl
@[simp] theorem modulus_setByte : (setByte s a b).modulus = s.modulus := rfl
@[simp] theorem modulus_retire : (retire s).modulus = s.modulus := rfl
@[simp] theorem modulus_enterFault : (enterFault c w s).modulus = s.modulus := rfl

@[simp] theorem textLength_setX : (s.setX r w).textLength = s.textLength := rfl
@[simp] theorem textLength_setV : (s.setV j es).textLength = s.textLength := rfl
@[simp] theorem textLength_setK : (s.setK i m).textLength = s.textLength := rfl
@[simp] theorem textLength_setByte : (setByte s a b).textLength = s.textLength := rfl
@[simp] theorem textLength_retire : (retire s).textLength = s.textLength := rfl
@[simp] theorem textLength_enterFault : (enterFault c w s).textLength = s.textLength := rfl

@[simp] theorem faulted_setX : (s.setX r w).faulted = s.faulted := rfl
@[simp] theorem faulted_setV : (s.setV j es).faulted = s.faulted := rfl
@[simp] theorem faulted_setK : (s.setK i m).faulted = s.faulted := rfl
@[simp] theorem faulted_setByte : (setByte s a b).faulted = s.faulted := rfl
@[simp] theorem faulted_retire : (retire s).faulted = s.faulted := rfl

@[simp] theorem matrix_setX : (s.setX r w).matrix n = s.matrix n := by cases n <;> rfl
@[simp] theorem matrix_setByte : (setByte s a b).matrix n = s.matrix n := by cases n <;> rfl
@[simp] theorem matrix_retire : (retire s).matrix n = s.matrix n := by cases n <;> rfl
@[simp] theorem matrix_enterFault : (enterFault c w s).matrix n = s.matrix n := by cases n <;> rfl

@[simp] theorem faulted_enterFault : (enterFault c w s).faulted = true := by
  simp [State.faulted]

@[simp] theorem faulted_reset : State.reset.faulted = false := rfl

end

end Sys2Proof.Machine
end

