-- ==== Sys2Proof/Laws/Arith.lean ====
section
/-! SUPPORT. The integer laws: what `chk`, `norm` and `toWord` give, and the bounds of a stored word. -/

namespace Sys2Proof.Machine

theorem fits32_iff (v : Int) : fits32 v = true ↔ -2147483648 ≤ v ∧ v ≤ 2147483647 := by simp [fits32]

/-- Every stored word is an `i32` (R7). -/
theorem toInt_fits (w : Word) : -2147483648 ≤ w.toInt ∧ w.toInt ≤ 2147483647 := by
  have h1 := BitVec.le_toInt w
  have h2 := BitVec.toInt_lt (x := w)
  norm_num at h1 h2
  omega

/-- A value that fits is stored as itself (R7). -/
theorem toInt_toWord (v : Int) (h : fits32 v = true) : (toWord v).toInt = v := by
  rw [fits32_iff] at h
  rw [toWord, BitVec.toInt_ofInt, Int.bmod_eq_of_le] <;> norm_num <;> omega

theorem toWord_toInt (w : Word) : toWord w.toInt = w := BitVec.ofInt_toInt

/-- A small number is stored as itself. -/
theorem toInt_ofNat_small (n : Nat) (h : n < 2147483648) : (BitVec.ofNat 32 n).toInt = n := by
  rw [show BitVec.ofNat 32 n = toWord n from (BitVec.ofInt_natCast 32 n).symm]
  exact toInt_toWord _ ((fits32_iff _).2 (by omega))

/-- All that `chk` can do. -/
theorem chk_eq (v : Int) : chk v = if fits32 v = true then .ok v else .error (.raise .arithOverflow) := rfl

@[simp] theorem chk_of_fits (v : Int) (h : fits32 v = true) : chk v = .ok v := by simp [chk_eq, h]

theorem chk_of_not_fits (v : Int) (h : ¬ fits32 v = true) : chk v = .error (.raise .arithOverflow) := by
  simp [chk_eq, h]

theorem normMod_nonneg (v : Int) (m : Nat) (h : 1 ≤ m) : 0 ≤ normMod v m := Int.emod_nonneg _ (by omega)

theorem normMod_lt (v : Int) (m : Nat) (h : 1 ≤ m) : normMod v m < m := Int.emod_lt_of_pos _ (by omega)

theorem dvd_sub_normMod (v : Int) (m : Nat) : (m : Int) ∣ v - normMod v m := by
  rw [normMod, Int.dvd_iff_emod_eq_zero, Int.sub_emod, Int.emod_emod_of_dvd _ (dvd_refl _)]
  simp

/-- `norm` is the only canonical residue (R120). -/
theorem normMod_unique (v r : Int) (m : Nat) (h0 : 0 ≤ r) (h1 : r < m) (hd : (m : Int) ∣ v - r) : normMod v m = r := by
  have := (Int.emod_emod_of_dvd v (dvd_refl (m : Int)))
  rw [normMod]
  have h2 : v % (m : Int) = r % (m : Int) := Int.ModEq.symm ((Int.modEq_iff_dvd).2 hd)
  rw [h2, Int.emod_eq_of_lt h0 h1]

theorem normMod_fits (v : Int) (m : Nat) (h1 : 1 ≤ m) (h2 : m ≤ 32767) : fits32 (normMod v m) = true := by
  have := normMod_nonneg v m h1
  have := normMod_lt v m h1
  rw [fits32_iff]; omega

/-- A normalised value is stored as a canonical residue. -/
theorem isResidue_toWord_normMod (v : Int) (m : Nat) (h1 : 1 ≤ m) (h2 : m ≤ 32767) : IsResidue (toWord (normMod v m)) v m := by
  rw [IsResidue, toInt_toWord _ (normMod_fits v m h1 h2)]
  exact ⟨normMod_nonneg v m h1, normMod_lt v m h1, dvd_sub_normMod v m⟩

/-- The canonical residue is stored as one word only. -/
theorem isResidue_unique (w : Word) (v : Int) (m : Nat) (h : IsResidue w v m) : w = toWord (normMod v m) := by
  rw [normMod_unique v w.toInt m h.1 h.2.1 h.2.2, toWord_toInt]

/-- Words that stand for congruent values have the same canonical residue. -/
theorem normMod_congr (v v' : Int) (m : Nat) (h : (m : Int) ∣ v - v') : normMod v m = normMod v' m := by
  exact Int.ModEq.symm ((Int.modEq_iff_dvd).2 h)

end Sys2Proof.Machine
end

