-- ==== Sys2Proof/Laws/Encoding.lean ====
section
/-! SUPPORT. The fields of the two formats (30_encoding.md R91, R92): each field of a word built from fields is the field it
was built from, and a word is built from its own fields. -/

namespace Sys2Proof

section
variable (op : BitVec 8) (rd ra rb : BitVec 3) (row col : BitVec 4) (imm : BitVec 16) (n : BitVec 4) (w : Word)

@[simp] theorem fieldOp_formatR : fieldOp (formatR op rd ra rb row col) = op := by
  unfold fieldOp formatR
  ext i hi
  simp
  grind

@[simp] theorem fieldRd_formatR : fieldRd (formatR op rd ra rb row col) = rd := by
  unfold fieldRd formatR
  ext i hi
  simp
  grind

@[simp] theorem fieldRa_formatR : fieldRa (formatR op rd ra rb row col) = ra := by
  unfold fieldRa formatR
  ext i hi
  simp
  grind

@[simp] theorem fieldRb_formatR : fieldRb (formatR op rd ra rb row col) = rb := by
  unfold fieldRb formatR
  ext i hi
  simp
  grind

@[simp] theorem fieldZeroR_formatR : fieldZeroR (formatR op rd ra rb row col) = 0 := by
  unfold fieldZeroR formatR
  ext i hi
  simp
  grind

@[simp] theorem fieldRow_formatR : fieldRow (formatR op rd ra rb row col) = row := by
  unfold fieldRow formatR
  ext i hi
  simp
  grind

@[simp] theorem fieldCol_formatR : fieldCol (formatR op rd ra rb row col) = col := by
  unfold fieldCol formatR
  ext i hi
  simp
  grind

@[simp] theorem fieldOp_formatI : fieldOp (formatI op rd ra imm) = op := by
  unfold fieldOp formatI
  ext i hi
  simp
  grind

@[simp] theorem fieldRd_formatI : fieldRd (formatI op rd ra imm) = rd := by
  unfold fieldRd formatI
  ext i hi
  simp
  grind

@[simp] theorem fieldRa_formatI : fieldRa (formatI op rd ra imm) = ra := by
  unfold fieldRa formatI
  ext i hi
  simp
  grind

@[simp] theorem fieldZeroI_formatI : fieldZeroI (formatI op rd ra imm) = 0 := by
  unfold fieldZeroI formatI
  ext i hi
  simp
  grind

@[simp] theorem fieldImm_formatI : fieldImm (formatI op rd ra imm) = imm := by
  unfold fieldImm formatI
  ext i hi
  simp
  grind

@[simp] theorem fieldCol_formatI_setWidth : fieldCol (formatI op rd ra (n.setWidth 16)) = n := by
  unfold fieldCol formatI
  ext i hi
  simp
  grind

@[simp] theorem fieldImmHigh_formatI_setWidth : fieldImmHigh (formatI op rd ra (n.setWidth 16)) = 0 := by
  unfold fieldImmHigh formatI
  ext i hi
  simp
  grind

/-- A word whose R-format zero bits are zero is the format R word of its own fields. -/
theorem formatR_fields (h : fieldZeroR w = 0) :
    formatR (fieldOp w) (fieldRd w) (fieldRa w) (fieldRb w) (fieldRow w) (fieldCol w) = w := by
  have h' : ∀ i, i < 7 → w.getLsbD (8 + i) = false := by
    intro i hi
    have := congrArg (fun b => b.getLsbD i) h
    simpa [fieldZeroR, hi] using this
  unfold formatR fieldOp fieldRd fieldRa fieldRb fieldRow fieldCol
  ext i hi
  have hz := h' (i - 8)
  simp at *
  grind

/-- A word whose I-format zero bits are zero is the format I word of its own fields. -/
theorem formatI_fields (h : fieldZeroI w = 0) :
    formatI (fieldOp w) (fieldRd w) (fieldRa w) (fieldImm w) = w := by
  have h' : ∀ i, i < 2 → w.getLsbD (16 + i) = false := by
    intro i hi
    have := congrArg (fun b => b.getLsbD i) h
    simpa [fieldZeroI, hi] using this
  unfold formatI fieldOp fieldRd fieldRa fieldImm
  ext i hi
  have hz := h' (i - 16)
  simp at *
  grind

/-- An immediate whose bits 15:4 are zero is its low four bits. -/
theorem setWidth_fieldCol (h : fieldImmHigh w = 0) : (fieldCol w).setWidth 16 = fieldImm w := by
  have h' : ∀ i, i < 12 → w.getLsbD (4 + i) = false := by
    intro i hi
    have := congrArg (fun b => b.getLsbD i) h
    simpa [fieldImmHigh, hi] using this
  unfold fieldCol fieldImm
  ext i hi
  have hz := h' (i - 4)
  simp at *
  grind

end

/-! ## Register fields (R93) -/

@[simp] theorem xregOf_xregField (r : XReg) : xregOf (xregField r) = r := rfl
@[simp] theorem xregField_xregOf (f : BitVec 3) : xregField (xregOf f) = f := rfl
@[simp] theorem vregOf_vregField (j : VReg) : vregOf (vregField j) = some j := by revert j; decide
@[simp] theorem kregOf_kregField (j : KReg) : kregOf (kregField j) = some j := by revert j; decide

@[simp] theorem mregOf_mregField (n : MReg) : mregOf (mregField n) = n := by
  cases n with
  | vec j => revert j; decide
  | key j => revert j; decide

@[simp] theorem mregField_mregOf (f : BitVec 3) : mregField (mregOf f) = f := by revert f; decide

theorem vregField_of_vregOf (f : BitVec 3) (j : VReg) (h : vregOf f = some j) : vregField j = f := by
  revert f j; decide

theorem kregField_of_kregOf (f : BitVec 3) (j : KReg) (h : kregOf f = some j) : kregField j = f := by
  revert f j; decide

/-! ## Well-formed commands (R96, R100) -/

theorem wellFormed_crr (xd : XReg) (cr : Field4) : (Instr.crr xd cr).wellFormed = true ↔ cr.toNat ≤ 6 := by
  simp [Instr.wellFormed]

theorem wellFormed_crw (cr : Field4) (xs : XReg) : (Instr.crw cr xs).wellFormed = true ↔ cr.toNat ≤ 1 := by
  simp [Instr.wellFormed]

theorem wellFormed_vnew (vd : VReg) (n : Field4) : (Instr.vnew vd n).wellFormed = true ↔ n.toNat ≤ 8 :=
  decide_eq_true_iff (p := n.toNat ≤ Config.mau.vlenMax)

/-! ## All that the decoder's tests can do -/

theorem whenZero_eq_ok (z : Bool) (r : Except DecodeError Instr) (i : Instr) :
    whenZero z r = .ok i ↔ z = true ∧ r = .ok i := by
  cases z <;> simp [whenZero]

theorem whenReg_eq_ok {α : Type} (r : Option α) (f : α → Instr) (i : Instr) :
    whenReg r f = .ok i ↔ ∃ a, r = some a ∧ f a = i := by
  cases r <;> simp [whenReg]

theorem whenWellFormed_eq_ok (j i : Instr) : whenWellFormed j = .ok i ↔ j.wellFormed = true ∧ j = i := by
  unfold whenWellFormed; split <;> simp_all

theorem zeroIndexR_eq (w : Word) :
    zeroIndexR w = true ↔ fieldZeroR w = 0 ∧ fieldRow w = 0 ∧ fieldCol w = 0 := by
  simp [zeroIndexR, and_assoc]

/-- The bytes of a word, lowest address first, decode as the word (R65). -/
theorem decodeBytes_busBytes (w : Word) : decodeBytes (busBytes w) = decode w := by
  have h : w.extractLsb' 24 8 ++ w.extractLsb' 16 8 ++ w.extractLsb' 8 8 ++ w.extractLsb' 0 8 = w := by
    ext i hi
    simp
    grind
  simp only [busBytes, decodeBytes]
  exact congrArg decode h

end Sys2Proof
end

