-- ==== Sys2Proof/Laws/Memory.lean ====
section
/-! SUPPORT. Text memory: read after write, the canonical form, which every operation keeps, and one lemma per memory
operation that says all it can do. -/

namespace Sys2Proof.Machine

theorem memGet_memSet (m : Memory) (a b : Nat) (w : Byte) :
    memGet (memSet m a w) b = if b = a then some w else memGet m b := by
  induction m with
  | nil => simp [memSet, memGet, eq_comm]
  | cons c rest ih =>
    obtain ⟨d, u⟩ := c
    simp only [memSet]
    split
    · simp only [memGet, eq_comm (a := a)]
    · split
      · subst_vars; simp only [memGet]; split <;> simp_all [eq_comm]
      · simp only [memGet, ih]
        split
        · subst_vars; simp; intro h; omega
        · rfl

/-- The canonical form, unfolded once: the head is the least address, and the rest is canonical. -/
theorem memWf_cons (a : Nat) (w : Byte) (rest : Memory) :
    memWf ((a, w) :: rest) = true ↔
      a < 4096 ∧ (∀ c ∈ rest, a < c.1) ∧ memWf rest = true := by
  change (decide (a < 4096) && rest.all (fun c => decide (a < c.1)) && memWf rest) = true ↔ _
  simp [and_assoc]

theorem memSet_mem (m : Memory) (a : Nat) (w : Byte) (c : Host.Cell) (h : c ∈ memSet m a w) :
    c.1 = a ∨ c ∈ m := by
  induction m with
  | nil => simp [memSet] at h; simp [h]
  | cons d rest ih =>
    obtain ⟨d, u⟩ := d
    simp only [memSet] at h
    split at h
    · simp at h; aesop
    · split at h
      · simp at h; aesop
      · simp at h; aesop

theorem memWf_memSet (m : Memory) (a : Nat) (w : Byte) (ha : a < 4096) (h : memWf m = true) :
    memWf (memSet m a w) = true := by
  induction m with
  | nil => exact (memWf_cons a w []).2 ⟨ha, by simp, rfl⟩
  | cons c rest ih =>
    obtain ⟨d, u⟩ := c
    obtain ⟨hd, hall, hr⟩ := (memWf_cons d u rest).1 h
    simp only [memSet]
    split
    · refine (memWf_cons _ _ _).2 ⟨ha, ?_, h⟩
      intro c hc
      rcases List.mem_cons.1 hc with rfl | hc
      · assumption
      · exact Nat.lt_trans ‹_› (hall c hc)
    · split
      · subst_vars; exact (memWf_cons _ _ _).2 ⟨ha, hall, hr⟩
      · refine (memWf_cons _ _ _).2 ⟨hd, ?_, ih hr⟩
        intro c hc
        rcases memSet_mem rest a w c hc with h' | h'
        · omega
        · exact hall c h'

theorem memGet_none_of_lt (m : Memory) (a : Nat) (h : ∀ c ∈ m, a < c.1) : memGet m a = none := by
  induction m with
  | nil => rfl
  | cons c rest ih =>
    obtain ⟨d, u⟩ := c
    have hd : a < d := h (d, u) (by simp)
    simp only [memGet, if_neg (Nat.ne_of_gt hd)]
    exact ih fun c hc => h c (by simp [hc])

variable (s t : State)

theorem byteAt_setByte (a b : Nat) (w : Byte) :
    byteAt (setByte s a w) b = if b = a then w else byteAt s b := by
  simp only [byteAt, setByte_tmem, setByte_powerOns, memGet_memSet]
  split <;> rfl

@[simp] theorem byteAt_setByte_self (a : Nat) (w : Byte) : byteAt (setByte s a w) a = w := by
  simp [byteAt_setByte]

theorem byteAt_setByte_of_ne (a b : Nat) (w : Byte) (h : b ≠ a) : byteAt (setByte s a w) b = byteAt s b := by
  simp [byteAt_setByte, h]

/-- All that a memory read can do. -/
theorem memRead_eq (a : Nat) :
    memRead s a = if a < 4096 then .ok (byteAt s a) else .error (.outside .tmemAddress) := rfl

/-- All that a memory write can do. -/
theorem memWrite_eq (a : Nat) (w : Byte) :
    memWrite s a w = if a < 4096 then .ok (setByte s a w) else .error (.outside .tmemAddress) := rfl

/-- The memory that consecutive writes leave; every other field is kept. -/
theorem memWriteAll_spec (ws : List Byte) (s : State) (a : Nat) (h : ws = [] ∨ a + ws.length ≤ 4096) :
    ∃ m, memWriteAll s a ws = .ok { s with tmem := m } ∧ (memWf s.tmem = true → memWf m = true) ∧
      (∀ b, b < a ∨ a + ws.length ≤ b → memGet m b = memGet s.tmem b) ∧
      ∀ e (he : e < ws.length), memGet m (a + e) = some ws[e] := by
  induction ws generalizing s a with
  | nil => exact ⟨s.tmem, rfl, id, fun _ _ => rfl, by simp⟩
  | cons w ws ih =>
    have ha : a + ws.length + 1 ≤ 4096 := by simpa [Nat.add_assoc] using h
    have hlt : a < 4096 := by omega
    obtain ⟨m, hm, hwf, hout, hin⟩ := ih (setByte s a w) (a + 1) (Or.inr (by omega))
    refine ⟨m, ?_, ?_, ?_, ?_⟩
    · simp only [memWriteAll, memWrite_eq, hlt, if_true]
      exact hm
    · intro h0; exact hwf (by simpa using memWf_memSet s.tmem a w hlt h0)
    · intro b hb
      rw [hout b (by simp at hb; omega), setByte_tmem, memGet_memSet, if_neg]
      simp at hb; omega
    · intro e he
      cases e with
      | zero =>
        rw [hout (a + 0) (by omega), setByte_tmem, memGet_memSet]
        simp
      | succ e =>
        have := hin e (by simpa using he)
        rw [show a + (e + 1) = a + 1 + e by omega, this]
        simp

/-- Memory operations never raise a fault of MAU; the one thing they can answer besides a state is the model's fault. -/
theorem memWriteAll_error (ws : List Byte) (s : State) (a : Nat) (e : Abort) (h : memWriteAll s a ws = .error e) :
    e = .outside .tmemAddress := by
  induction ws generalizing s a with
  | nil => simp [memWriteAll] at h
  | cons w ws ih =>
    simp only [memWriteAll, memWrite_eq] at h
    split at h
    · rename_i heq; split at heq
      · exact ih _ _ h
      · cases heq
    · rename_i heq; split at heq
      · cases heq
      · cases heq; cases h; rfl

end Sys2Proof.Machine
end

