-- ==== Sys2Proof/Laws/Ops.lean ====
section
/-! SUPPORT. The shared operations, one lemma each that says all they can do: the end of a command, the frames of a retired
command and of fault entry, control registers, entries, the determinant, the scan, the codec. -/

namespace Sys2Proof.Machine

/-! ## The end of a command -/

section
variable (i : Instr) (s t : State)

@[simp] theorem complete_ok (u : State) : complete i s (.ok u) = .next (retire u) := rfl

@[simp] theorem complete_raise (c : Cause) :
    complete i s (.error (.raise c)) = .next (enterFault c (encode i) s) := rfl

@[simp] theorem complete_outside (f : Fault) : complete i s (.error (.outside f)) = .fault f := rfl

/-- All that the end of a command can do, when it gives a next state. -/
theorem complete_next (r : Except Abort State) :
    complete i s r = .next t ↔
      (∃ u, r = .ok u ∧ t = retire u) ∨ ∃ c, r = .error (.raise c) ∧ t = enterFault c (encode i) s := by
  rcases r with (c | f) | u <;> simp [eq_comm]

theorem complete_not_refused (r : Except Abort State) (x : Refusal) : complete i s r ≠ .refused x := by
  rcases r with (c | f) | u <;> simp

end

/-! ## Frames -/

section
variable (s : State)

theorem faults_enterFault (c : Cause) (w : Word) : Faults w c s (enterFault c w s) where
  fault_set := by simp
  status_rest i h := by
    have : (1#32).getLsbD i = false := by simp [BitVec.getLsbD_one, h]
    simp [this]
  cause_eq := rfl
  fcix_eq := rfl
  fcmd_eq := rfl
  cix_eq := rfl
  mod_eq := rfl
  tlen_eq := rfl
  sameX _ := rfl
  sameV _ := rfl
  sameK _ := rfl
  sameText _ := rfl
  powerOns_eq := rfl
  input_eq := rfl
  readData_eq := rfl

theorem writesX_setX (r : XReg) (w : Word) : WritesX s (retire (s.setX r w)) r w where
  result := by simp
  others r' h := by simp [getX_setX_of_ne s r r' w h]
  sameV _ := by simp
  sameK _ := by simp
  sameText _ := by simp
  control := by constructor <;> rfl
  cix_eq := rfl

theorem writesV_setV (j : VReg) (es : List Word) : WritesV s (retire (s.setV j es)) j es where
  result := by simp
  others j' h := by simp [getV_setV_of_ne s j j' es h]
  sameX _ := by simp
  sameK _ := by simp
  sameText _ := by simp
  control := by constructor <;> rfl
  cix_eq := rfl

theorem writesK_setK (j : KReg) (m : KeyMatrix) : WritesK s (retire (s.setK j m)) j m where
  result := by simp
  others j' h := by simp [getK_setK_of_ne s j j' m h]
  sameX _ := by simp
  sameV _ := by simp
  sameText _ := by simp
  control := by constructor <;> rfl
  cix_eq := rfl

/-- A matrix register after a vector register is written. -/
theorem matrix_setV (j : VReg) (es : List Word) (n : MReg) :
    (s.setV j es).matrix n = if n = .vec j then .vec es else s.matrix n := by
  cases n with
  | vec j' => simp only [State.matrix, getV_setV, MReg.vec.injEq]; split <;> rfl
  | key j' => simp [State.matrix]

/-- A matrix register after a key register is written. -/
theorem matrix_setK (j : KReg) (m : KeyMatrix) (n : MReg) :
    (s.setK j m).matrix n = if n = .key j then .key m else s.matrix n := by
  cases n with
  | vec j' => simp [State.matrix]
  | key j' => simp only [State.matrix, getK_setK, MReg.key.injEq]; split <;> rfl

theorem writesMatrix_setV (j : VReg) (es : List Word) : WritesMatrix s (retire (s.setV j es)) (.vec j) where
  others n h := by simp [matrix_setV, h]
  sameX _ := by simp
  sameText _ := by simp
  control := by constructor <;> rfl
  cix_eq := rfl

theorem writesMatrix_setK (j : KReg) (m : KeyMatrix) : WritesMatrix s (retire (s.setK j m)) (.key j) where
  others n h := by simp [matrix_setK, h]
  sameX _ := by simp
  sameText _ := by simp
  control := by constructor <;> rfl
  cix_eq := rfl

end

/-! ## Control registers (R32 to R34) -/

theorem controlWrite_mod (s : State) (w : Word) :
    controlWrite s 0 w = if 1 ≤ w.toInt ∧ w.toInt ≤ 32767 then .ok { s with mod := w }
      else .error (.raise .invalidControlValue) := rfl

theorem controlWrite_tlen (s : State) (w : Word) :
    controlWrite s 1 w = if 0 ≤ w.toInt ∧ w.toInt ≤ 4096 then .ok { s with tlen := w }
      else .error (.raise .invalidControlValue) := rfl

/-- STATUS reads as FAULT in bit 0 and zero in every other bit (R32, R35). -/
theorem statusWord_eq (s : State) : s.statusWord = if s.faulted then 1 else 0 := by
  unfold State.statusWord State.faulted
  ext i hi
  by_cases h0 : i = 0
  · subst h0; simp; split <;> simp_all
  · simp [BitVec.getElem_one, h0]; split <;> simp [BitVec.getElem_one, h0]

/-! ## The text extent (R64) -/

theorem insideText_iff (s : State) (a n : Nat) : insideText s a n = true ↔ a + n ≤ s.textLength := by
  simp [insideText]

/-! ## Entries (R26, R30) -/

theorem matrixEntry_vec (es : List Word) (r c : Nat) :
    matrixEntry (.vec es) r c = if r = 0 then es[c]? else none := by
  cases r <;> simp [matrixEntry]

/-- An entry exists exactly where the index is valid (R138, R139). -/
theorem matrixEntry_isSome (s : State) (n : MReg) (r c : Nat) :
    (matrixEntry (s.matrix n) r c).isSome = true ↔ ValidIndex s n r c := by
  cases n with
  | vec j =>
    simp only [State.matrix, matrixEntry_vec, ValidIndex]
    split <;> simp_all
  | key j =>
    simp only [State.matrix, ValidIndex]
    match r, c with
    | 0, 0 | 0, 1 | 1, 0 | 1, 1 => simp [matrixEntry]
    | 0, c + 2 | 1, c + 2 => simp [matrixEntry]
    | r + 2, c => simp [matrixEntry]

/-! ## The determinant and the scan (R150, R152) -/

/-- All that `determinant` can do. -/
theorem determinant_of_fits (k : KeyMatrix) (m : Nat) (h : DetFits k) :
    determinant k m = .ok (normMod (detInt k) m) := by
  obtain ⟨h1, h2, h3⟩ := h
  simp only [determinant, chk_of_fits _ h1, chk_of_fits _ h2]
  rw [show k.a.toInt * k.d.toInt - k.b.toInt * k.c.toInt = detInt k from rfl, chk_of_fits _ h3]

theorem determinant_of_not_fits (k : KeyMatrix) (m : Nat) (h : ¬ DetFits k) :
    determinant k m = .error (.raise .arithOverflow) := by
  simp only [determinant, chk_eq, DetFits, detInt] at *
  grind

/-- What the scan finds: the first candidate that is an inverse. -/
theorem scanInverse_some (dt : Int) (m trials inv r : Nat) (h : scanInverse dt m trials inv = some r) :
    inv ≤ r ∧ r < inv + trials ∧ normMod (dt * r) m = 1 ∧ ∀ j, inv ≤ j → j < r → normMod (dt * j) m ≠ 1 := by
  induction trials generalizing inv with
  | zero => simp [scanInverse] at h
  | succ n ih =>
    simp only [scanInverse] at h
    split at h
    · cases h; exact ⟨Nat.le_refl _, by omega, ‹_›, fun j h1 h2 => by omega⟩
    · obtain ⟨h1, h2, h3, h4⟩ := ih (inv + 1) h
      refine ⟨by omega, by omega, h3, fun j hj hr => ?_⟩
      rcases Nat.eq_or_lt_of_le hj with rfl | hj
      · assumption
      · exact h4 j hj hr

/-- The scan finds nothing exactly when no candidate is an inverse. -/
theorem scanInverse_none (dt : Int) (m trials inv : Nat) :
    scanInverse dt m trials inv = none ↔ ∀ j, inv ≤ j → j < inv + trials → normMod (dt * j) m ≠ 1 := by
  induction trials generalizing inv with
  | zero => simp [scanInverse]; intros; omega
  | succ n ih =>
    simp only [scanInverse]
    split
    · simp only [reduceCtorEq, false_iff, not_forall]
      exact ⟨inv, Nat.le_refl _, by omega, fun h => h ‹_›⟩
    · rw [ih]
      constructor
      · intro h j hj hlt
        rcases Nat.eq_or_lt_of_le hj with rfl | hj
        · assumption
        · exact h j hj (by omega)
      · intro h j hj hlt
        exact h j (by omega) (by omega)

/-- All that `scaledAdjugate` can do (R154). -/
theorem scaledAdjugate_of_fits (k : KeyMatrix) (di : Int) (m : Nat) (h : AdjugateFits k di) :
    scaledAdjugate k di m = .ok
      { a := toWord (normMod (k.d.toInt * di) m), b := toWord (normMod (-(k.b.toInt * di)) m),
        c := toWord (normMod (-(k.c.toInt * di)) m), d := toWord (normMod (k.a.toInt * di) m) } := by
  obtain ⟨h1, h2, h3, h4, h5, h6⟩ := h
  simp only [scaledAdjugate, scaled, scaledNeg, chk_of_fits _ h1, chk_of_fits _ h2, chk_of_fits _ h3,
    chk_of_fits _ h4, chk_of_fits _ h5, chk_of_fits _ h6]

theorem scaledAdjugate_of_not_fits (k : KeyMatrix) (di : Int) (m : Nat) (h : ¬ AdjugateFits k di) :
    scaledAdjugate k di m = .error (.raise .arithOverflow) := by
  simp only [scaledAdjugate, scaled, scaledNeg, chk_eq]
  by_cases h1 : fits32 (k.d.toInt * di) = true <;> simp only [h1, if_true, if_false, Bool.false_eq_true]
  by_cases h2 : fits32 (k.b.toInt * di) = true <;> simp only [h2, if_true, if_false, Bool.false_eq_true]
  by_cases h3 : fits32 (-(k.b.toInt * di)) = true <;> simp only [h3, if_true, if_false, Bool.false_eq_true]
  by_cases h4 : fits32 (k.c.toInt * di) = true <;> simp only [h4, if_true, if_false, Bool.false_eq_true]
  by_cases h5 : fits32 (-(k.c.toInt * di)) = true <;> simp only [h5, if_true, if_false, Bool.false_eq_true]
  by_cases h6 : fits32 (k.a.toInt * di) = true <;> simp only [h6, if_true, if_false, Bool.false_eq_true]
  exact absurd ⟨h1, h2, h3, h4, h5, h6⟩ h

/-! ## The codec (R165) -/

theorem isLetter_iff (b : Int) (m : Nat) : isLetter b m = true ↔ LetterCode b m := by
  change decide ((65 : Int) ≤ b ∧ b ≤ 255 ∧ b - 65 < m) = true ↔ _
  rw [decide_eq_true_eq, LetterCode]; omega

theorem isDigit_iff (d : Int) (m : Nat) : isDigit d m = true ↔ DigitValue d m := by
  change decide ((0 : Int) ≤ d ∧ d < m ∧ d + 65 ≤ 255) = true ↔ _
  rw [decide_eq_true_eq, DigitValue]; omega

theorem letterToDigit_of_letter (b : Int) (m : Nat) (h : LetterCode b m) :
    letterToDigit b m = .ok (toWord (b - 65)) := by
  simp only [letterToDigit, (isLetter_iff b m).2 h, if_true]; rfl

theorem letterToDigit_of_not_letter (b : Int) (m : Nat) (h : ¬ LetterCode b m) :
    letterToDigit b m = .error (.raise .invalidSymbol) := by
  simp only [letterToDigit, isLetter_iff, h, if_false]

theorem digitToLetter_of_digit (d : Int) (m : Nat) (h : DigitValue d m) :
    digitToLetter d m = .ok (toWord (d + 65)) := by
  simp only [digitToLetter, (isDigit_iff d m).2 h, if_true]; rfl

theorem digitToLetter_of_not_digit (d : Int) (m : Nat) (h : ¬ DigitValue d m) :
    digitToLetter d m = .error (.raise .invalidSymbol) := by
  simp only [digitToLetter, isDigit_iff, h, if_false]

/-- All that `encodeBlock` can do: every element is a digit and its letter is stored, or the block is refused. -/
theorem encodeBlock_of_digits (m : Nat) (es : List Word) (h : ∀ e ∈ es, DigitValue e.toInt m) :
    encodeBlock m es = .ok (es.map fun e => (toWord (e.toInt + 65)).setWidth 8) := by
  induction es with
  | nil => rfl
  | cons e es ih =>
    simp only [encodeBlock, digitToLetter_of_digit _ _ (h e (by simp)), ih fun x hx => h x (by simp [hx]),
      List.map_cons]

theorem encodeBlock_of_not_digits (m : Nat) (es : List Word) (h : ∃ e ∈ es, ¬ DigitValue e.toInt m) :
    encodeBlock m es = .error (.raise .invalidSymbol) := by
  induction es with
  | nil => simp at h
  | cons e es ih =>
    by_cases he : DigitValue e.toInt m
    · have h' : ∃ x ∈ es, ¬ DigitValue x.toInt m := by
        obtain ⟨x, hx, hn⟩ := h
        rcases List.mem_cons.1 hx with rfl | hx
        · exact absurd he hn
        · exact ⟨x, hx, hn⟩
      simp only [encodeBlock, digitToLetter_of_digit _ _ he, ih h']
    · simp only [encodeBlock, digitToLetter_of_not_digit _ _ he]

end Sys2Proof.Machine
end

