-- ==== Sys2Proof/Laws/Codec.lean ====
section
/-! SUPPORT. All that loading and storing a block can do (43_block_codec.md R169, R171), check by check in their order. -/

namespace Sys2Proof.Machine

variable (s : State) (a : Nat)

theorem decodeBlock_letters (b0 b1 : Byte) (m : Nat) (h0 : LetterCode b0.toNat m) (h1 : LetterCode b1.toNat m) :
    decodeBlock b0 b1 m = .ok [toWord ((b0.toNat : Int) - 65), toWord ((b1.toNat : Int) - 65)] := by
  simp only [decodeBlock, letterToDigit_of_letter _ _ h0, letterToDigit_of_letter _ _ h1]

theorem decodeBlock_not_letters (b0 b1 : Byte) (m : Nat)
    (h : ¬ (LetterCode b0.toNat m ∧ LetterCode b1.toNat m)) :
    decodeBlock b0 b1 m = .error (.raise .invalidSymbol) := by
  unfold decodeBlock
  by_cases h0 : LetterCode b0.toNat m
  · rw [letterToDigit_of_letter _ _ h0, letterToDigit_of_not_letter _ _ fun h1 => h ⟨h0, h1⟩]
  · rw [letterToDigit_of_not_letter _ _ h0]

theorem loadBlock_odd (h : a % 2 = 1) : loadBlock s a = .error (.raise .textMisaligned) := by
  simp [loadBlock, h]

theorem loadBlock_outside (h : a % 2 = 0) (h2 : s.textLength < a + 2) :
    loadBlock s a = .error (.raise .textRange) := by
  have : insideText s a 2 = false := by rw [← Bool.not_eq_true, insideText_iff]; omega
  simp [loadBlock, h, this, Config.mau_block]

theorem loadBlock_inside (h : a % 2 = 0) (h2 : a + 2 ≤ s.textLength) (h3 : s.tlenOk) :
    loadBlock s a = decodeBlock (byteAt s a) (byteAt s (a + 1)) s.modulus := by
  have hin : insideText s a 2 = true := (insideText_iff s a 2).2 h2
  have h3' : s.textLength ≤ 4096 := h3
  simp [loadBlock, h, hin, Config.mau_block, memRead_eq, show a < 4096 by omega, show a + 1 < 4096 by omega]

variable (es : List Word)

theorem storeBlock_outside (h : s.textLength < a + es.length) : storeBlock s a es = .error (.raise .textRange) := by
  have : insideText s a es.length = false := by rw [← Bool.not_eq_true, insideText_iff]; omega
  simp [storeBlock, this]

theorem storeBlock_not_digits (h : a + es.length ≤ s.textLength) (h2 : ∃ e ∈ es, ¬ DigitValue e.toInt s.modulus) :
    storeBlock s a es = .error (.raise .invalidSymbol) := by
  simp [storeBlock, (insideText_iff s a es.length).2 h, encodeBlock_of_not_digits _ _ h2]

/-- The letter of a digit is one byte. -/
theorem letter_toNat (w : Word) (m : Nat) (h : DigitValue w.toInt m) :
    ((((toWord (w.toInt + 65)).setWidth 8 : Byte).toNat : Nat) : Int) = w.toInt + 65 := by
  unfold DigitValue at h
  obtain ⟨n, hn⟩ := Int.eq_ofNat_of_zero_le h.1
  rw [hn] at h ⊢
  rw [toWord, show (n : Int) + 65 = ((n + 65 : Nat) : Int) by push_cast; rfl, BitVec.ofInt_natCast]
  simp
  omega

theorem storeBlock_digits (h : a + es.length ≤ s.textLength) (h2 : s.tlenOk)
    (h3 : ∀ e ∈ es, DigitValue e.toInt s.modulus) :
    ∃ m, storeBlock s a es = .ok { s with tmem := m } ∧ (memWf s.tmem = true → memWf m = true) ∧
      (∀ b, b < a ∨ a + es.length ≤ b → memGet m b = memGet s.tmem b) ∧
      ∀ e (he : e < es.length), memGet m (a + e) = some ((toWord (es[e].toInt + 65)).setWidth 8) := by
  have h2' : s.textLength ≤ 4096 := h2
  obtain ⟨m, hm, hwf, hout, hin⟩ :=
    memWriteAll_spec (es.map fun e => (toWord (e.toInt + 65)).setWidth 8) s a (.inr (by simp; omega))
  refine ⟨m, ?_, hwf, fun b hb => hout b (by simpa using hb), fun e he => ?_⟩
  · rw [storeBlock, if_neg (by simp [insideText_iff, h]), encodeBlock_of_digits _ _ h3]
    exact hm
  · rw [hin e (by simpa using he), List.getElem_map]

end Sys2Proof.Machine
end

