-- ==== Sys2Proof/Laws/Product.lean ====
section
/-! SUPPORT. All that the matrix product can do (41_matrix_abstraction.md R130, R131): refuse a key as `self`, refuse
dimensions that do not fit, overflow, or give the exact sums. -/

namespace Sys2Proof.Machine

theorem multiply_key (m : KeyMatrix) (b : MatrixValue) :
    multiply (.key m) b = .error (.raise .unsupportedOperation) := rfl

theorem multiply_vec (es : List Word) (b : MatrixValue) :
    multiply (.vec es) b = if es.length = matrixHeight b then rowTimes es (matrixColumns b)
      else .error (.raise .dimensionMismatch) := rfl

/-- A row of one element times a row vector. -/
theorem rowTimes_singleton (u : Word) (ws : List Word) :
    rowTimes [u] (ws.map fun e => [e]) =
      if ∀ w ∈ ws, fits32 (u.toInt * w.toInt) = true then .ok (ws.map fun w => toWord (u.toInt * w.toInt))
      else .error (.raise .arithOverflow) := by
  induction ws with
  | nil => simp [rowTimes]
  | cons w ws ih =>
    have hcons : (∀ x ∈ w :: ws, fits32 (u.toInt * x.toInt) = true) ↔
        fits32 (u.toInt * w.toInt) = true ∧ ∀ x ∈ ws, fits32 (u.toInt * x.toInt) = true := by simp
    simp only [List.map_cons, rowTimes, dotFrom, chk_eq, ih, zero_add]
    by_cases h : fits32 (u.toInt * w.toInt) = true
    · by_cases h2 : ∀ x ∈ ws, fits32 (u.toInt * x.toInt) = true
      · rw [if_pos (hcons.2 ⟨h, h2⟩), if_pos h2, if_pos h]
        simp only [if_pos h]
      · rw [if_neg fun hc => h2 (hcons.1 hc).2, if_neg h2, if_pos h]
        simp only [if_pos h]
    · rw [if_neg fun hc => h (hcons.1 hc).1, if_neg h]

/-- A row of two elements times a column of two. -/
theorem dotFrom_pair (u v a c : Word) :
    dotFrom 0 [u, v] [a, c] =
      if fits32 (u.toInt * a.toInt) = true ∧ fits32 (v.toInt * c.toInt) = true ∧
        fits32 (u.toInt * a.toInt + v.toInt * c.toInt) = true
      then .ok (u.toInt * a.toInt + v.toInt * c.toInt) else .error (.raise .arithOverflow) := by
  simp only [dotFrom, chk_eq, zero_add]
  by_cases h1 : fits32 (u.toInt * a.toInt) = true <;> simp only [h1, if_true, if_false, true_and, false_and, Bool.false_eq_true]
  by_cases h2 : fits32 (v.toInt * c.toInt) = true <;> simp only [h2, if_true, if_false, true_and, false_and, Bool.false_eq_true]
  by_cases h3 : fits32 (u.toInt * a.toInt + v.toInt * c.toInt) = true <;>
    simp only [h3, if_true, if_false, Bool.false_eq_true]

/-- The named intermediates of a one-element row times a row vector. -/
theorem productFits_vec (u : Word) (ws : List Word) :
    ProductFits (.vec [u]) (.vec ws) ↔ ∀ w ∈ ws, fits32 (u.toInt * w.toInt) = true := by
  constructor
  · intro h w hw
    obtain ⟨c, hc, rfl⟩ := List.getElem_of_mem hw
    have := (h c hc 0 (by simp [matrixWidth])).1
    simpa [entryInt, matrixEntry, hc] using this
  · intro h c hc k hk
    simp only [matrixWidth, List.length_singleton, Nat.lt_one_iff] at hc hk
    subst hk
    have := h ws[c] (by simp)
    simp [partialSum, entryInt, matrixEntry, hc, this]

/-- The named intermediates of a two-element row times a key matrix. -/
theorem productFits_key (u v : Word) (m : KeyMatrix) :
    ProductFits (.vec [u, v]) (.key m) ↔
      (fits32 (u.toInt * m.a.toInt) = true ∧ fits32 (v.toInt * m.c.toInt) = true ∧
        fits32 (u.toInt * m.a.toInt + v.toInt * m.c.toInt) = true) ∧
      (fits32 (u.toInt * m.b.toInt) = true ∧ fits32 (v.toInt * m.d.toInt) = true ∧
        fits32 (u.toInt * m.b.toInt + v.toInt * m.d.toInt) = true) := by
  constructor
  · intro h
    have h00 := h 0 (by simp [matrixWidth]) 0 (by simp [matrixWidth])
    have h01 := h 0 (by simp [matrixWidth]) 1 (by simp [matrixWidth])
    have h10 := h 1 (by simp [matrixWidth]) 0 (by simp [matrixWidth])
    have h11 := h 1 (by simp [matrixWidth]) 1 (by simp [matrixWidth])
    simp [partialSum, entryInt, matrixEntry, Finset.sum_range_succ] at h00 h01 h10 h11
    simp [h00, h01, h10, h11]
  · rintro ⟨⟨h1, h2, h3⟩, h4, h5, h6⟩ c hc k hk
    simp only [matrixWidth, List.length_cons, List.length_nil] at hc hk
    have hck : c = 0 ∧ k = 0 ∨ c = 0 ∧ k = 1 ∨ c = 1 ∧ k = 0 ∨ c = 1 ∧ k = 1 := by omega
    rcases hck with ⟨rfl, rfl⟩ | ⟨rfl, rfl⟩ | ⟨rfl, rfl⟩ | ⟨rfl, rfl⟩ <;>
      simp [partialSum, entryInt, matrixEntry, Finset.sum_range_succ, h1, h2, h3, h4, h5, h6]

/-- Dimensions that fit: the shapes of R131 (i) and (ii). -/
theorem width_eq_height (es : List Word) (b : MatrixValue) (h : es.length = matrixHeight b) :
    (∃ u ws, es = [u] ∧ b = .vec ws) ∨ ∃ u v m, es = [u, v] ∧ b = .key m := by
  cases b with
  | vec ws => obtain ⟨u, hu⟩ := List.length_eq_one_iff.1 h; exact .inl ⟨u, ws, hu, rfl⟩
  | key m => obtain ⟨u, v, hu⟩ := List.length_eq_two.1 h; exact .inr ⟨u, v, m, hu, rfl⟩

/-- The product of a two-element row with a key matrix (R131 i). -/
theorem multiply_pair_key (u v : Word) (m : KeyMatrix) (h : ProductFits (.vec [u, v]) (.key m)) :
    multiply (.vec [u, v]) (.key m) = .ok
      [toWord (u.toInt * m.a.toInt + v.toInt * m.c.toInt), toWord (u.toInt * m.b.toInt + v.toInt * m.d.toInt)] := by
  obtain ⟨h1, h2⟩ := (productFits_key u v m).1 h
  rw [multiply_vec, if_pos (show [u, v].length = matrixHeight (.key m) from rfl)]
  simp only [matrixColumns, rowTimes, dotFrom_pair, if_pos h1, if_pos h2]

/-- The product of a one-element row with a row vector (R131 ii). -/
theorem multiply_singleton_vec (u : Word) (ws : List Word) (h : ProductFits (.vec [u]) (.vec ws)) :
    multiply (.vec [u]) (.vec ws) = .ok (ws.map fun w => toWord (u.toInt * w.toInt)) := by
  rw [multiply_vec, if_pos (show [u].length = matrixHeight (.vec ws) from rfl)]
  rw [matrixColumns, rowTimes_singleton, if_pos ((productFits_vec u ws).1 h)]

/-- A product or a running sum that does not fit is an overflow (R122). -/
theorem multiply_overflow (es : List Word) (b : MatrixValue) (hd : es.length = matrixHeight b)
    (h : ¬ ProductFits (.vec es) b) : multiply (.vec es) b = .error (.raise .arithOverflow) := by
  rw [multiply_vec, if_pos hd]
  rcases width_eq_height es b hd with ⟨u, ws, rfl, rfl⟩ | ⟨u, v, m, rfl, rfl⟩
  · rw [matrixColumns, rowTimes_singleton, if_neg (by rwa [← productFits_vec])]
  · rw [productFits_key] at h
    simp only [matrixColumns, rowTimes, dotFrom_pair]
    split_ifs <;> simp_all

end Sys2Proof.Machine
end

