-- ==== Sys2Proof/Laws/Exec.lean ====
section
/-! SUPPORT. All that a command can do, said once: it enters a fault, or it retires from a state that differs from the state
before it in the command's own destination only. -/

namespace Sys2Proof.Machine

/-- What the command `i`, where it does not fault, has written before it retires: `u` is the state after its writes. -/
def Effect (i : Instr) (s u : State) : Prop :=
  match i with
  | .nop => u = s
  | .li xd _ | .lih xd _ | .crr xd _ | .norm xd _ | .get xd _ _ _ | .width xd _ | .height xd _ | .det xd _
  | .detinv xd _ | .l2d xd _ | .d2l xd _ => ∃ w, u = s.setX xd w
  | .crw cr xs =>
    (cr = 0 ∧ 1 ≤ (s.getX xs).toInt ∧ (s.getX xs).toInt ≤ 32767 ∧ u = { s with mod := s.getX xs }) ∨
      (cr = 1 ∧ 0 ≤ (s.getX xs).toInt ∧ (s.getX xs).toInt ≤ 4096 ∧ u = { s with tlen := s.getX xs })
  | .mul vd _ mb => ∃ es, es.length = matrixWidth (s.matrix mb) ∧ u = s.setV vd es
  | .red (.vec j) | .set (.vec j) _ _ _ => ∃ es, es.length = (s.getV j).length ∧ u = s.setV j es
  | .vnew vd _ => ∃ es, es.length ≤ 8 ∧ u = s.setV vd es
  | .ldblk vd _ => ∃ es, es.length = 2 ∧ u = s.setV vd es
  | .inv kd _ | .red (.key kd) | .set (.key kd) _ _ _ => ∃ m, u = s.setK kd m
  | .stblk _ _ => ∃ m, (memWf s.tmem = true → memWf m = true) ∧ u = { s with tmem := m }

theorem map_eq_ok {α β : Type} (r : Except Abort α) (f : α → β) (y : β) :
    r.map f = .ok y ↔ ∃ x, r = .ok x ∧ f x = y := by
  cases r <;> simp [Except.map]

theorem rowTimes_length (row : List Word) (columns : List (List Word)) (es : List Word)
    (h : rowTimes row columns = .ok es) : es.length = columns.length := by
  induction columns generalizing es with
  | nil => cases h; rfl
  | cons column rest ih =>
    simp only [rowTimes] at h
    split at h
    · cases h
    · split at h
      · cases h
      · cases h; simp [ih _ ‹_›]

theorem matrixColumns_length (a : MatrixValue) : (matrixColumns a).length = matrixWidth a := by
  cases a <;> simp [matrixColumns, matrixWidth]

theorem multiply_length (a b : MatrixValue) (es : List Word) (h : multiply a b = .ok es) :
    es.length = matrixWidth b := by
  cases a with
  | key m => cases h
  | vec row =>
    simp only [multiply] at h
    split at h
    · rw [rowTimes_length _ _ _ h, matrixColumns_length]
    · cases h

theorem loadBlock_length (s : State) (a : Nat) (es : List Word) (h : loadBlock s a = .ok es) : es.length = 2 := by
  simp only [loadBlock, decodeBlock] at h
  split at h
  · cases h
  · split at h
    · cases h
    · split at h
      · split at h <;> cases h; rfl
      all_goals cases h

/-- Consecutive writes change text memory only, and keep its canonical form. -/
theorem memWriteAll_ok (ws : List Byte) (s : State) (a : Nat) (u : State) (h : memWriteAll s a ws = .ok u) :
    ∃ m, (memWf s.tmem = true → memWf m = true) ∧ u = { s with tmem := m } := by
  induction ws generalizing s a with
  | nil =>
    obtain rfl := Except.ok.inj h
    exact ⟨_, id, rfl⟩
  | cons w ws ih =>
    simp only [memWriteAll, memWrite_eq] at h
    split at h
    · rename_i hw
      split at hw
      · cases hw
        obtain ⟨m, hm, rfl⟩ := ih _ _ h
        exact ⟨m, fun h0 => hm (memWf_memSet s.tmem a w ‹_› h0), rfl⟩
      · cases hw
    · cases h

theorem storeBlock_ok (s : State) (a : Nat) (es : List Word) (u : State) (h : storeBlock s a es = .ok u) :
    ∃ m, (memWf s.tmem = true → memWf m = true) ∧ u = { s with tmem := m } := by
  simp only [storeBlock] at h
  split at h
  · cases h
  · split at h
    · cases h
    · exact memWriteAll_ok _ _ _ _ h

theorem exec_eq_complete (i : Instr) (s : State) : ∃ r, exec i s = complete i s r ∧ ∀ u, r = .ok u → Effect i s u := by
  cases i with
  | nop => exact ⟨.ok s, rfl, fun u h => (Except.ok.inj h).symm⟩
  | li | lih | norm | width | height => exact ⟨.ok _, rfl, fun u h => ⟨_, (Except.ok.inj h).symm⟩⟩
  | crr xd cr =>
    refine ⟨_, rfl, fun u h => ?_⟩
    split at h <;> cases h
    exact ⟨_, rfl⟩
  | get xd ma row col =>
    refine ⟨_, rfl, fun u h => ?_⟩
    split at h <;> cases h
    exact ⟨_, rfl⟩
  | crw cr xs =>
    refine ⟨_, rfl, fun u h => ?_⟩
    unfold controlWrite at h
    split at h
    · split at h <;> cases h
      exact .inl ⟨BitVec.eq_of_toNat_eq ‹_›, (‹_ ∧ _›).1, (‹_ ∧ _›).2, rfl⟩
    · split at h <;> cases h
      exact .inr ⟨BitVec.eq_of_toNat_eq ‹_›, (‹_ ∧ _›).1, (‹_ ∧ _›).2, rfl⟩
    · cases h
  | mul vd ma mb =>
    refine ⟨_, rfl, fun u h => ?_⟩
    obtain ⟨es, he, rfl⟩ := (map_eq_ok _ _ _).1 h
    exact ⟨es, multiply_length _ _ _ he, rfl⟩
  | red ma =>
    refine ⟨_, rfl, fun u h => ?_⟩
    cases ma <;> cases h
    · exact ⟨_, by simp, rfl⟩
    · exact ⟨_, rfl⟩
  | set ma row col xs =>
    refine ⟨_, rfl, fun u h => ?_⟩
    split at h <;> cases h
    cases ma
    · exact ⟨_, by simp, rfl⟩
    · exact ⟨_, rfl⟩
  | vnew vd n =>
    refine ⟨_, rfl, fun u h => ?_⟩
    split at h <;> cases h
    exact ⟨_, by rw [List.length_replicate]; exact ‹_›, rfl⟩
  | det xd ma =>
    refine ⟨_, rfl, fun u h => ?_⟩
    split at h
    · cases h
    · obtain ⟨_, _, rfl⟩ := (map_eq_ok _ _ _).1 h
      exact ⟨_, rfl⟩
  | detinv xd ma =>
    refine ⟨_, rfl, fun u h => ?_⟩
    split at h
    · cases h
    · obtain ⟨_, _, rfl⟩ := (map_eq_ok _ _ _).1 h
      exact ⟨_, rfl⟩
  | inv kd ma =>
    refine ⟨_, rfl, fun u h => ?_⟩
    split at h
    · cases h
    · obtain ⟨_, _, rfl⟩ := (map_eq_ok _ _ _).1 h
      exact ⟨_, rfl⟩
  | l2d xd xs =>
    refine ⟨_, rfl, fun u h => ?_⟩
    obtain ⟨_, _, rfl⟩ := (map_eq_ok _ _ _).1 h
    exact ⟨_, rfl⟩
  | d2l xd xs =>
    refine ⟨_, rfl, fun u h => ?_⟩
    obtain ⟨_, _, rfl⟩ := (map_eq_ok _ _ _).1 h
    exact ⟨_, rfl⟩
  | ldblk vd addr =>
    refine ⟨_, rfl, fun u h => ?_⟩
    obtain ⟨es, he, rfl⟩ := (map_eq_ok _ _ _).1 h
    exact ⟨es, loadBlock_length _ _ _ he, rfl⟩
  | stblk va addr => exact ⟨_, rfl, storeBlock_ok _ _ _⟩

/-- All that a command can do, when it gives a next state. -/
theorem exec_next (i : Instr) (s t : State) (h : exec i s = .next t) :
    (∃ u, Effect i s u ∧ t = retire u) ∨ ∃ c, t = enterFault c (encode i) s := by
  obtain ⟨r, hr, hu⟩ := exec_eq_complete i s
  rw [hr] at h
  rcases (complete_next i s t r).1 h with ⟨u, rfl, ht⟩ | ⟨c, _, ht⟩
  · exact .inl ⟨u, hu u rfl, ht⟩
  · exact .inr ⟨c, ht⟩

theorem exec_not_refused (i : Instr) (s : State) (x : Refusal) : exec i s ≠ .refused x := by
  obtain ⟨r, hr, _⟩ := exec_eq_complete i s
  rw [hr]
  exact complete_not_refused i s r x

end Sys2Proof.Machine
end

