-- ==== Sys2Proof/Laws/PerInstr.lean ====
section
/-! SUPPORT. The family of laws made per command: the opcode field of a command's word is the opcode of its row
(30_encoding.md R96). -/

namespace Sys2Proof.Laws.OpcodeField

/-- The column "op" of R96. -/
def tableOpcode : Instr → BitVec 8
  | .nop => 0x00
  | .li _ _ => 0x01
  | .lih _ _ => 0x02
  | .crr _ _ => 0x04
  | .crw _ _ => 0x05
  | .norm _ _ => 0x10
  | .mul _ _ _ => 0x20
  | .red _ => 0x21
  | .get _ _ _ _ => 0x22
  | .set _ _ _ _ => 0x23
  | .width _ _ => 0x24
  | .height _ _ => 0x25
  | .vnew _ _ => 0x26
  | .det _ _ => 0x30
  | .detinv _ _ => 0x31
  | .inv _ _ => 0x32
  | .l2d _ _ => 0x40
  | .d2l _ _ => 0x41
  | .ldblk _ _ => 0x42
  | .stblk _ _ => 0x43

/-- The opcode field of the word of a command is its row's opcode. -/
def Statement (i : Instr) : Prop := fieldOp (encode i) = tableOpcode i

theorem nop : Statement .nop := fieldOp_formatR ..
theorem li (xd : XReg) (imm : Imm16) : Statement (.li xd imm) := fieldOp_formatI ..
theorem lih (xd : XReg) (imm : Imm16) : Statement (.lih xd imm) := fieldOp_formatI ..
theorem crr (xd : XReg) (cr : Field4) : Statement (.crr xd cr) := fieldOp_formatI ..
theorem crw (cr : Field4) (xs : XReg) : Statement (.crw cr xs) := fieldOp_formatI ..
theorem norm (xd xs : XReg) : Statement (.norm xd xs) := fieldOp_formatR ..
theorem mul (vd : VReg) (ma mb : MReg) : Statement (.mul vd ma mb) := fieldOp_formatR ..
theorem red (ma : MReg) : Statement (.red ma) := fieldOp_formatR ..
theorem get (xd : XReg) (ma : MReg) (row col : Field4) : Statement (.get xd ma row col) := fieldOp_formatR ..
theorem set (ma : MReg) (row col : Field4) (xs : XReg) : Statement (.set ma row col xs) := fieldOp_formatR ..
theorem width (xd : XReg) (ma : MReg) : Statement (.width xd ma) := fieldOp_formatR ..
theorem height (xd : XReg) (ma : MReg) : Statement (.height xd ma) := fieldOp_formatR ..
theorem vnew (vd : VReg) (n : Field4) : Statement (.vnew vd n) := fieldOp_formatI ..
theorem det (xd : XReg) (ma : MReg) : Statement (.det xd ma) := fieldOp_formatR ..
theorem detinv (xd : XReg) (ma : MReg) : Statement (.detinv xd ma) := fieldOp_formatR ..
theorem inv (kd : KReg) (ma : MReg) : Statement (.inv kd ma) := fieldOp_formatR ..
theorem l2d (xd xs : XReg) : Statement (.l2d xd xs) := fieldOp_formatR ..
theorem d2l (xd xs : XReg) : Statement (.d2l xd xs) := fieldOp_formatR ..
theorem ldblk (vd : VReg) (addr : Imm16) : Statement (.ldblk vd addr) := fieldOp_formatI ..
theorem stblk (va : VReg) (addr : Imm16) : Statement (.stblk va addr) := fieldOp_formatI ..

end Sys2Proof.Laws.OpcodeField
end

