-- ==== Sys2Proof/Laws/Window.lean ====
section
/-! SUPPORT. Which accesses of the host window reach which location (20_memory.md R69, R70), and all that a window access can
do. -/

namespace Sys2Proof.Machine

theorem byteLocation_eq (o : Nat) :
    byteLocation o = if 0x10000 ≤ o ∧ o < 0x11000 then some (.text (o - 0x10000)) else none := rfl

/-- The word locations that are not a register's: CMD and CTRL, each at its own offset; none of them is text. -/
theorem wordLocation_some (o : Nat) (l : Location) (h : wordLocation o = some l) :
    (l = .cmd → o = 0) ∧ (l = .ctrl → o = 4) ∧ ∀ a, l ≠ .text a := by
  unfold wordLocation at h
  repeat' split at h
  all_goals first
    | (obtain rfl := Option.some.inj h; simp_all)
    | cases h

/-- A read-only word location is a location, and none that acts on a write (R69, R70). -/
theorem wordLocation_register (o : Nat) (h4 : o % 4 = 0) (h : RegisterOffset o) :
    ∃ l, wordLocation o = some l ∧ l ≠ .cmd ∧ l ≠ .ctrl := by
  have h0 : o ≠ 0 ∧ o ≠ 4 := by unfold RegisterOffset at h; omega
  have hs : (wordLocation o).isSome = true := by
    unfold RegisterOffset at h
    unfold wordLocation
    repeat' split
    all_goals first
      | rfl
      | omega
  obtain ⟨l, hl⟩ := Option.isSome_iff_exists.1 hs
  obtain ⟨hc, ht, _⟩ := wordLocation_some o l hl
  exact ⟨l, hl, fun e => h0.1 (hc e), fun e => h0.2 (ht e)⟩

/-- A word location begins exactly at the assigned word offsets of the register area (R69). -/
theorem wordLocation_eq_none (o : Nat) (h4 : o % 4 = 0) :
    wordLocation o = none ↔ ¬ (o < 0x8 ∨ RegisterOffset o) := by
  unfold wordLocation RegisterOffset
  repeat' split
  all_goals simp only [reduceCtorEq, false_iff, true_iff, Decidable.not_not]
  all_goals omega

/-- A byte belongs to no location exactly if its offset is unassigned (R69, R70). -/
theorem locationOfByte_eq_none (o : Nat) : locationOfByte o = none ↔ ¬ AssignedOffset o := by
  unfold locationOfByte AssignedOffset
  rw [byteLocation_eq]
  split_ifs with ht
  · simp only [false_iff]; omega
  · simp only [wordLocation_eq_none (o - o % 4) (by omega), RegisterOffset]
    omega

theorem accessTarget_location (width : BusWidth) (offset : BitVec 17) (l : Location)
    (h : accessTarget width offset = .location l) : exactLocation width offset.toNat = some l := by
  unfold accessTarget at h
  split at h
  · rw [← Target.location.inj h]; assumption
  · split at h <;> cases h

/-- Only a word access at offset 0 reaches CMD. -/
theorem accessTarget_cmd (width : BusWidth) (offset : BitVec 17) (h : accessTarget width offset = .location .cmd) :
    width = .word ∧ offset = 0 := by
  have h := accessTarget_location _ _ _ h
  cases width with
  | word =>
    simp only [exactLocation] at h
    split at h
    · exact ⟨rfl, BitVec.eq_of_toNat_eq ((wordLocation_some _ _ h).1 rfl)⟩
    · cases h
  | byte => simp only [exactLocation, byteLocation_eq] at h; split at h <;> cases h
  | half => cases h

/-- Only a word access at offset 4 reaches CTRL. -/
theorem accessTarget_ctrl (width : BusWidth) (offset : BitVec 17) (h : accessTarget width offset = .location .ctrl) :
    width = .word ∧ offset = 4 := by
  have h := accessTarget_location _ _ _ h
  cases width with
  | word =>
    simp only [exactLocation] at h
    split at h
    · exact ⟨rfl, BitVec.eq_of_toNat_eq ((wordLocation_some _ _ h).2.1 rfl)⟩
    · cases h
  | byte => simp only [exactLocation, byteLocation_eq] at h; split at h <;> cases h
  | half => cases h

/-- Only a byte access of text memory's offsets reaches text memory, at the address its offset says. -/
theorem accessTarget_text (width : BusWidth) (offset : BitVec 17) (a : Nat)
    (h : accessTarget width offset = .location (.text a)) :
    width = .byte ∧ offset.toNat = 0x10000 + a ∧ a < 4096 := by
  have h := accessTarget_location _ _ _ h
  cases width with
  | word =>
    simp only [exactLocation] at h
    split at h
    · exact absurd rfl ((wordLocation_some _ _ h).2.2 a)
    · cases h
  | byte =>
    simp only [exactLocation, byteLocation_eq] at h
    split at h
    · have := Location.text.inj (Option.some.inj h)
      exact ⟨rfl, by omega, by omega⟩
    · cases h
  | half => cases h

/-- All that a window write can do. -/
theorem windowWrite_cases (width : BusWidth) (offset : BitVec 17) (value : Word) (s : State) :
    (width = .word ∧ offset = 0 ∧ windowWrite width offset value s = issue value s) ∨
      (width = .word ∧ offset = 4 ∧ windowWrite width offset value s = .next (writeCtrl value s)) ∨
      (∃ a, a < 4096 ∧ width = .byte ∧ offset.toNat = 0x10000 + a ∧
        windowWrite width offset value s = .next (setByte s a (value.setWidth 8))) ∨
      windowWrite width offset value s = .next s ∨
      (accessTarget width offset = .undefinedAccess ∧ windowWrite width offset value s = .refused .windowAccess) := by
  unfold windowWrite
  split
  · obtain ⟨rfl, rfl⟩ := accessTarget_cmd _ _ ‹_›; exact .inl ⟨rfl, rfl, rfl⟩
  · obtain ⟨rfl, rfl⟩ := accessTarget_ctrl _ _ ‹_›; exact .inr (.inl ⟨rfl, rfl, rfl⟩)
  · obtain ⟨rfl, h1, h2⟩ := accessTarget_text _ _ _ ‹_›
    exact .inr (.inr (.inl ⟨_, h2, rfl, h1, rfl⟩))
  · exact .inr (.inr (.inr (.inl rfl)))
  · exact .inr (.inr (.inr (.inl rfl)))
  · exact .inr (.inr (.inr (.inr ⟨‹_›, rfl⟩)))

/-- A faulted unit discards a word (R204). -/
theorem issue_of_faulted (w : Word) (s : State) (h : s.faulted = true) : issue w s = .next s := by simp [issue, h]

/-- All that issuing a word can do while FAULT = 0 (R71, R97). -/
theorem issue_of_not_faulted (w : Word) (s : State) (h : s.faulted = false) :
    (∃ i, decode w = .ok i ∧ issue w s = exec i s) ∨
      ∃ e, decode w = .error e ∧ issue w s = .next (enterFault .illegalCommand w s) := by
  unfold issue
  rw [h]
  cases hd : decode w with
  | ok i => exact .inl ⟨i, rfl, rfl⟩
  | error e => exact .inr ⟨e, rfl, rfl⟩

/-- A window read gives no value exactly where the spec defines no such access (U6). -/
theorem windowRead_eq_none (s : State) (width : BusWidth) (offset : BitVec 17) :
    windowRead s width offset = none ↔ accessTarget width offset = .undefinedAccess := by
  unfold windowRead; split <;> simp_all

end Sys2Proof.Machine
end

