-- ==== Sys2Proof/Machine/Assembler.lean ====
section
/-! DEFINITION. The assembler syntax of 30_encoding.md R103 and its pseudo-instructions (R104): a command as a line of text,
and a line of text as the commands it stands for. The machine never sees text; this file is the spec's notation. -/

namespace Sys2Proof.Machine

/-! ## A command as text -/

def xName (r : XReg) : String := "x" ++ toString r.val
def vName (j : VReg) : String := "v" ++ toString j.val
def kName (j : KReg) : String := "k" ++ toString j.val

/-- A matrix number is written by its register's name: `k1` is matrix number 5 (R103). -/
def mName : MReg → String
  | .vec j => vName j
  | .key j => kName j

/-- The control registers by number (R32); they are written by name or by number (R103). -/
def controlNames : List String := ["MOD", "TLEN", "STATUS", "CAUSE", "FCIX", "FCMD", "CIX"]

def controlName (cr : Field4) : String := (controlNames[cr.toNat]?).getD (toString cr.toNat)

def fieldText (f : Field4) : String := toString f.toNat

def lineOf (mnemonic : String) (operands : List String) : String := mnemonic ++ " " ++ String.intercalate ", " operands

/-- The line of a command: mnemonic, operands in the order of R96, immediates in decimal, LI's signed (R94, R103). -/
def assembly : Instr → String
  | .nop => "NOP"
  | .li xd imm => lineOf "LI" [xName xd, toString imm.toInt]
  | .lih xd imm => lineOf "LIH" [xName xd, toString imm.toNat]
  | .crr xd cr => lineOf "CRR" [xName xd, controlName cr]
  | .crw cr xs => lineOf "CRW" [controlName cr, xName xs]
  | .norm xd xs => lineOf "NORM" [xName xd, xName xs]
  | .mul vd ma mb => lineOf "MUL" [vName vd, mName ma, mName mb]
  | .red ma => lineOf "RED" [mName ma]
  | .get xd ma row col => lineOf "GET" [xName xd, mName ma, fieldText row, fieldText col]
  | .set ma row col xs => lineOf "SET" [mName ma, fieldText row, fieldText col, xName xs]
  | .width xd ma => lineOf "WIDTH" [xName xd, mName ma]
  | .height xd ma => lineOf "HEIGHT" [xName xd, mName ma]
  | .vnew vd n => lineOf "VNEW" [vName vd, fieldText n]
  | .det xd ma => lineOf "DET" [xName xd, mName ma]
  | .detinv xd ma => lineOf "DETINV" [xName xd, mName ma]
  | .inv kd ma => lineOf "INV" [kName kd, mName ma]
  | .l2d xd xs => lineOf "L2D" [xName xd, xName xs]
  | .d2l xd xs => lineOf "D2L" [xName xd, xName xs]
  | .ldblk vd addr => lineOf "LDBLK" [vName vd, toString addr.toNat]
  | .stblk va addr => lineOf "STBLK" [vName va, toString addr.toNat]

/-! ## Text as commands -/

/-- The text without blanks at its ends. -/
def trimmed (cs : List Char) : List Char := ((cs.dropWhile (· == ' ')).reverse.dropWhile (· == ' ')).reverse

/-- The value of a digit in base 10 or 16. -/
def digitValue (base : Nat) (c : Char) : Option Nat :=
  let v :=
    if '0' ≤ c ∧ c ≤ '9' then c.toNat - '0'.toNat
    else if 'a' ≤ c ∧ c ≤ 'f' then c.toNat - 'a'.toNat + 10
    else if 'A' ≤ c ∧ c ≤ 'F' then c.toNat - 'A'.toNat + 10
    else base
  if v < base then some v else none

def digitsFrom (base acc : Nat) : List Char → Option Nat
  | [] => some acc
  | c :: cs => (digitValue base c).bind fun v => digitsFrom base (acc * base + v) cs

/-- A number without a sign: decimal, or hexadecimal with `0x` (R103). -/
def readNat : List Char → Option Nat
  | [] => none
  | ['0', 'x'] => none
  | '0' :: 'x' :: cs => digitsFrom 16 0 cs
  | cs => digitsFrom 10 0 cs

/-- A number of at most `bits` bits. -/
def readBits (bits : Nat) (cs : List Char) : Option (BitVec bits) :=
  (readNat cs).bind fun n => if n < 2 ^ bits then some (BitVec.ofNat bits n) else none

/-- LI's immediate: a negative decimal is allowed too (R94, R103). -/
def readSigned : List Char → Option Imm16
  | '-' :: c :: cs => (digitsFrom 10 0 (c :: cs)).bind fun n => if n ≤ 32768 then some (BitVec.ofInt 16 (-n)) else none
  | cs => readBits 16 cs

/-- A register of a family of `n + 1` named by one letter and a number. -/
def readReg (letter : Char) (n : Nat) : List Char → Option (Fin (n + 1))
  | [c, d] =>
    if c = letter then (digitValue 10 d).bind fun v => if v < n + 1 then some (Fin.ofNat (n + 1) v) else none else none
  | _ => none

def readX : List Char → Option XReg := readReg 'x' 7
def readV : List Char → Option VReg := readReg 'v' 3
def readK : List Char → Option KReg := readReg 'k' 3

def readM (cs : List Char) : Option MReg :=
  match readV cs with
  | some j => some (.vec j)
  | none => (readK cs).map .key

/-- A control register, by name or by number (R103). -/
def readControl (cs : List Char) : Option Field4 :=
  if String.ofList cs ∈ controlNames then some (BitVec.ofNat 4 (controlNames.idxOf (String.ofList cs)))
  else readBits 4 cs

/-- The command or pseudo-instruction with this mnemonic and these operands, as the commands it stands for (R96, R104). -/
def readCommand (mnemonic : String) (operands : List (List Char)) : Option (List Instr) :=
  match mnemonic, operands with
  | "NOP", [] => some [.nop]
  | "LI", [a, b] => do return [.li (← readX a) (← readSigned b)]
  | "LIH", [a, b] => do return [.lih (← readX a) (← readBits 16 b)]
  | "CRR", [a, b] => do return [.crr (← readX a) (← readControl b)]
  | "CRW", [a, b] => do return [.crw (← readControl a) (← readX b)]
  | "NORM", [a, b] => do return [.norm (← readX a) (← readX b)]
  | "MUL", [a, b, c] => do return [.mul (← readV a) (← readM b) (← readM c)]
  | "RED", [a] => do return [.red (← readM a)]
  | "GET", [a, b, c, d] => do return [.get (← readX a) (← readM b) (← readBits 4 c) (← readBits 4 d)]
  | "SET", [a, b, c, d] => do return [.set (← readM a) (← readBits 4 b) (← readBits 4 c) (← readX d)]
  | "WIDTH", [a, b] => do return [.width (← readX a) (← readM b)]
  | "HEIGHT", [a, b] => do return [.height (← readX a) (← readM b)]
  | "VNEW", [a, b] => do return [.vnew (← readV a) (← readBits 4 b)]
  | "DET", [a, b] => do return [.det (← readX a) (← readM b)]
  | "DETINV", [a, b] => do return [.detinv (← readX a) (← readM b)]
  | "INV", [a, b] => do return [.inv (← readK a) (← readM b)]
  | "L2D", [a, b] => do return [.l2d (← readX a) (← readX b)]
  | "D2L", [a, b] => do return [.d2l (← readX a) (← readX b)]
  | "LDBLK", [a, b] => do return [.ldblk (← readV a) (← readBits 16 b)]
  | "STBLK", [a, b] => do return [.stblk (← readV a) (← readBits 16 b)]
  | "LI32", [a, b] => do return expandLi32 (← readX a) (← readBits 32 b)
  | "SETMOD", [a] => do return expandSetmod (← readX a)
  | "SETTLEN", [a] => do return expandSettlen (← readX a)
  | "KSET", [a, b, c, d, e] => do return expandKset (← readK a) (← readX b) (← readX c) (← readX d) (← readX e)
  | "ENC", [a, b, c] => do return expandEnc (← readV a) (← readV b) (← readK c)
  | _, _ => none

/-- The operands of a line, separated by commas. -/
def splitOperands (cs : List Char) : List (List Char) :=
  if trimmed cs = [] then [] else (cs.splitOn ',').map trimmed

/-- A line of assembly as the commands it stands for (R103): none for a blank or comment line, and no answer for text that
is no line of this syntax or names no well-formed command. -/
def assembleLine (line : String) : Option (List Instr) :=
  let cs := trimmed (line.toList.takeWhile (· ≠ ';'))
  if cs = [] then some []
  else
    match readCommand (String.ofList (cs.takeWhile (· ≠ ' '))) (splitOperands (cs.dropWhile (· ≠ ' '))) with
    | some is => if is.all Instr.wellFormed then some is else none
    | none => none

end Sys2Proof.Machine
end

