-- ==== Sys2Proof/Tests/Slice0.lean ====
section
/-! SUPPORT. The package's own tests: the checks of WellFormed, the decoder on words written out from 30_encoding.md and
95_test_vectors.md, one-step tests of every command with the results of 95_test_vectors.md, and for every statement with
hypotheses a state and operands that meet them. -/

namespace Sys2Proof.Tests

open Sys2Proof Sys2Proof.Machine

/-! ## Helpers -/

/-- The state after reset with V0 and K0 set and MOD written. -/
def start (mod : Nat) (v0 : List Int) (k0 : Int × Int × Int × Int) : State :=
  { (State.reset.setV 0 (v0.map toWord)).setK 0
      { a := toWord k0.1, b := toWord k0.2.1, c := toWord k0.2.2.1, d := toWord k0.2.2.2 } with
    mod := BitVec.ofNat 32 mod }

/-- The state after reset with X0 set and MOD written. -/
def startX (mod : Nat) (x0 : Int) : State := { State.reset.setX 0 (toWord x0) with mod := BitVec.ofNat 32 mod }

/-- The state after reset with a text in text memory from address 0. -/
def startText (text : List Nat) : State :=
  { State.reset with
    tlen := BitVec.ofNat 32 text.length
    tmem := text.zipIdx.map fun p => (p.2, BitVec.ofNat 8 p.1) }

/-- "HELLOW". -/
def hellow : State := startText [72, 69, 76, 76, 79, 87]

/-- What `f` says of the state after the step in which the host issues the word `w` in state `s`. -/
def issued {α : Type} (w : Word) (s : State) (f : State → α) : Option α :=
  match step (s.withFetchWord 32 w.toNat) with
  | .next t => some (f t)
  | _ => none

/-- The control registers of the fault record, and CIX. -/
def record (t : State) : List Nat := [t.status, t.cause, t.fcix, t.fcmd, t.cix].map BitVec.toNat

def vector (j : VReg) (t : State) : List Int := (t.getV j).map BitVec.toInt

def fields (j : KReg) (t : State) : List Int := [(t.getK j).a, (t.getK j).b, (t.getK j).c, (t.getK j).d].map BitVec.toInt

/-! ## WellFormed -/

theorem test_wellFormed_crr : (Instr.crr 0 6).wellFormed = true ∧ (Instr.crr 0 7).wellFormed = false := by decide
theorem test_wellFormed_crw : (Instr.crw 1 0).wellFormed = true ∧ (Instr.crw 2 0).wellFormed = false := by decide
theorem test_wellFormed_vnew : (Instr.vnew 0 8).wellFormed = true ∧ (Instr.vnew 0 9).wellFormed = false := by decide

/-! ## Decode: a word for every row (30_encoding.md section 6), written out field by field -/

theorem test_decode_nop : decode 0x00000000 = .ok .nop := by decide
theorem test_decode_li : decode (0x01#8 ++ 2#3 ++ 0#3 ++ 0#2 ++ 0xFFFF#16) = .ok (.li 2 0xFFFF) := by decide
theorem test_decode_lih : decode (0x02#8 ++ 2#3 ++ 0#3 ++ 0#2 ++ 0x7FFF#16) = .ok (.lih 2 0x7FFF) := by decide
theorem test_decode_crr : decode 0x04600006 = .ok (.crr 3 6) := by decide
theorem test_decode_crw : decode (0x05#8 ++ 0#3 ++ 1#3 ++ 0#2 ++ 0#16) = .ok (.crw 0 1) := by decide
theorem test_decode_norm : decode 0x10080000 = .ok (.norm 0 2) := by decide
theorem test_decode_mul :
    decode (0x20#8 ++ 1#3 ++ 0#3 ++ 4#3 ++ 0#7 ++ 0#4 ++ 0#4) = .ok (.mul 1 (.vec 0) (.key 0)) := by decide
theorem test_decode_red : decode 0x21040000 = .ok (.red (.vec 1)) := by decide
theorem test_decode_get : decode (0x22#8 ++ 5#3 ++ 4#3 ++ 0#3 ++ 0#7 ++ 1#4 ++ 0#4) = .ok (.get 5 (.key 0) 1 0) := by
  decide
theorem test_decode_set : decode 0x23120011 = .ok (.set (.key 0) 1 1 4) := by decide
theorem test_decode_width : decode 0x24080000 = .ok (.width 0 (.vec 2)) := by decide
theorem test_decode_height : decode 0x251C0000 = .ok (.height 0 (.key 3)) := by decide
theorem test_decode_vnew : decode 0x26600002 = .ok (.vnew 3 2) := by decide
theorem test_decode_det : decode 0x30D00000 = .ok (.det 6 (.key 0)) := by decide
theorem test_decode_detinv : decode 0x31F00000 = .ok (.detinv 7 (.key 0)) := by decide
theorem test_decode_inv : decode (0x32#8 ++ 5#3 ++ 4#3 ++ 0#3 ++ 0#15) = .ok (.inv 1 (.key 0)) := by decide
theorem test_decode_l2d : decode 0x40200000 = .ok (.l2d 1 0) := by decide
theorem test_decode_d2l : decode 0x41200000 = .ok (.d2l 1 0) := by decide
theorem test_decode_ldblk : decode 0x42000004 = .ok (.ldblk 0 4) := by decide
theorem test_decode_stblk : decode (0x43#8 ++ 0#3 ++ 1#3 ++ 0#2 ++ 4#16) = .ok (.stblk 1 4) := by decide

/-- The decoder and the opcode map give each row's own command for the row's `match` word. -/
theorem test_match_words_decode :
    (opcodeMap.map fun r => (decodeTableWord 32 r.pattern.toNat).isSome) = List.replicate 20 true := by decide

/-- 95_test_vectors.md section 4.1, opcodes (R98). -/
theorem test_illegal_opcodes :
    ([0x03000000, 0x06000000, 0x0F123456, 0x11000000, 0x27000000, 0x33000000, 0x44000000, 0xFFFFFFFF].map decode) =
      List.replicate 8 (.error .unassignedOpcode) := by decide

/-- 95_test_vectors.md section 4.1, fields that are not zero (R99). -/
theorem test_illegal_fields :
    ([0x00000001, 0x01040000, 0x01010000, 0x04000010, 0x05200000, 0x10008000, 0x10000100, 0x10000001, 0x20000001,
      0x21200000, 0x22008000, 0x23200000, 0x26040000, 0x32B08000, 0x42040000, 0x43200000, 0x43020000].map decode) =
      List.replicate 17 (.error .nonzeroField) := by decide

/-- 95_test_vectors.md section 4.1, restricted fields (R100). -/
theorem test_illegal_restricted :
    ([0x04000007, 0x05000002, 0x20800000, 0x26800000, 0x26000009, 0x32300000, 0x42800000, 0x43100000].map decode) =
      List.replicate 8 (.error .restrictedField) := by decide

theorem test_illegal_word_faults : issued 0x26000009 State.reset record = some [1, 5, 0, 0x26000009, 0] := by decide

/-! ## One step of each command, results from 95_test_vectors.md -/

theorem test_nop : issued 0x00000000 { State.reset with cix := 4 } record = some [0, 0, 0, 0, 5] := by decide
theorem test_li_sign : issued 0x01A08000 State.reset (fun t => (t.getX 5).toInt) = some (-32768) := by decide
theorem test_lih : issued 0x02407FFF (State.reset.setX 2 0xFFFFFFFF) (fun t => (t.getX 2).toInt) = some 2147483647 := by
  decide
theorem test_crr_cix : issued 0x04E00006 { State.reset with cix := 7 } (fun t => (t.getX 7, t.cix)) = some (7, 8) := by
  decide
theorem test_crr_mod : issued 0x04000000 State.reset (fun t => t.getX 0) = some 26 := by decide
theorem test_crw_mod_max : issued 0x05000000 (startX 26 32767) State.modulus = some 32767 := by decide
theorem test_crw_mod_above : issued 0x05000000 (startX 26 32768) record = some [1, 10, 0, 0x05000000, 0] := by decide
theorem test_norm_least : issued 0x10200000 (startX 32767 (-2147483648)) (fun t => (t.getX 1).toInt) = some 32765 := by
  decide
theorem test_norm_in_place : issued 0x10000000 (startX 26 (-1)) (fun t => (t.getX 0).toInt) = some 25 := by decide
theorem test_mul : issued 0x20220000 (start 26 [7, 4] (3, 3, 2, 5)) (vector 1) = some [29, 41] := by decide
theorem test_mul_running_sum :
    issued 0x20020000 (start 26 [46340, 46340] (46340, 0, 46340, 0)) record = some [1, 6, 0, 0x20020000, 0] := by decide
theorem test_red_vector :
    issued 0x21000000 (start 26 [-1, -26, 26, 0, 2147483647, -2147483648] (0, 0, 0, 0)) (vector 0) =
      some [25, 0, 0, 0, 23, 2] := by decide
theorem test_red_key : issued 0x21100000 (start 26 [] (29, -3, 52, 25)) (fields 0) = some [3, 23, 0, 25] := by decide
theorem test_get_field_c :
    issued 0x22B00010 (start 26 [7, 4] (3, 3, 2, 5)) (fun t => (t.getX 5).toInt) = some 2 := by decide
theorem test_get_beyond : issued 0x22A00002 (start 26 [7, 4] (3, 3, 2, 5)) record = some [1, 3, 0, 0x22A00002, 0] := by
  decide
theorem test_set_vector :
    issued 0x23020001 ((start 26 [7, 4] (3, 3, 2, 5)).setX 4 (toWord (-9))) (vector 0) = some [7, -9] := by decide
theorem test_set_key :
    issued 0x23120010 ((start 26 [7, 4] (3, 3, 2, 5)).setX 4 (toWord (-9))) (fields 0) = some [3, 3, -9, 5] := by decide
theorem test_width :
    issued 0x24000000 (start 26 [1, 2, 3, 4, 5, 6, 7, 8] (0, 0, 0, 0)) (fun t => t.getX 0) = some 8 := by decide
theorem test_height_empty : issued 0x25A40000 State.reset (fun t => t.getX 5) = some 1 := by decide
theorem test_vnew : issued 0x26000008 (start 26 [7, 4] (0, 0, 0, 0)) (vector 0) = some [0, 0, 0, 0, 0, 0, 0, 0] := by
  decide
theorem test_det : issued 0x30100000 (start 26 [] (5, 8, 17, 3)) (fun t => (t.getX 0).toInt) = some 9 := by decide
theorem test_det_overflow : issued 0x30100000 (start 26 [] (65536, 0, 0, 65536)) record = some [1, 6, 0, 0x30100000, 0] := by
  decide
theorem test_detinv : issued 0x31300000 (start 26 [] (7, 8, 11, 11)) (fun t => (t.getX 1).toInt) = some 7 := by decide
theorem test_detinv_mod_one : issued 0x31300000 (start 1 [] (3, 3, 2, 5)) record = some [1, 4, 0, 0x31300000, 0] := by
  decide
theorem test_inv : issued 0x32B00000 (start 5 [] (-3, 12, 1, 2)) (fields 1) = some [1, 4, 2, 1] := by decide
theorem test_inv_overflow_last :
    issued 0x32B00000 (start 26 [] (-2147483648, 1, 1, 0)) record = some [1, 6, 0, 0x32B00000, 0] := by decide
theorem test_l2d : issued 0x40200000 (startX 26 72) (fun t => t.getX 1) = some 7 := by decide
theorem test_l2d_above : issued 0x40200000 (startX 26 91) record = some [1, 7, 0, 0x40200000, 0] := by decide
theorem test_d2l : issued 0x41200000 (startX 26 15) (fun t => t.getX 1) = some 80 := by decide
theorem test_d2l_above : issued 0x41200000 (startX 26 26) record = some [1, 7, 0, 0x41200000, 0] := by decide
theorem test_ldblk : issued 0x42000004 hellow (vector 0) = some [14, 22] := by decide
theorem test_ldblk_odd : issued 0x42000003 hellow record = some [1, 9, 0, 0x42000003, 0] := by decide
theorem test_stblk :
    issued 0x43000003 (hellow.setV 0 [3, 15]) (fun t => (List.range 6).map fun a => (byteAt t a).toNat) =
      some [72, 69, 76, 68, 80, 87] := by decide
theorem test_stblk_not_digit :
    issued 0x43000000 (hellow.setV 0 [3, 26]) (fun t => (record t, (byteAt t 0).toNat)) =
      some ([1, 7, 0, 0x43000000, 0], 72) := by decide

/-- 95_test_vectors.md section 4.3: the variant check comes before the others. -/
theorem test_priority_variant :
    issued 0x20100000 (start 26 [] (65536, 0, 0, 65536)) record = some [1, 2, 0, 0x20100000, 0] := by decide

/-! ## The machine -/

/-- Program P2: a command of a faulted unit is discarded. -/
theorem test_discard :
    issued 0x01A00063 (enterFault .noModularInverse 0x32B00000 { State.reset with cix := 9 })
      (fun t => (record t, t.getX 5)) = some ([1, 4, 9, 0x32B00000, 9], 0) := by decide

/-- 95_test_vectors.md section 4.4: a soft reset keeps text memory. -/
theorem test_soft_reset :
    (match perform (.write .word 4 1) (enterFault .invalidIndex 0x22200000 hellow) with
     | .next t => some (record t, (byteAt t 0).toNat, t.textLength)
     | _ => none) = some ([0, 0, 0, 0, 0], 72, 0) := by decide

theorem test_idle : step State.reset = .next State.reset := rfl

theorem test_window_element : windowRead (start 26 [7, 4] (3, 3, 2, 5)) .word 0x00104 = some 4 := by decide
theorem test_window_undefined : windowRead State.reset .half 0x00040 = none := by decide

theorem test_assembly : assembly (.get 5 (.key 0) 1 0) = "GET x5, k0, 1, 0" := by decide
theorem test_assemble : assembleLine "LI x2, -1 ; minus one" = some [.li 2 0xFFFF] := by decide
theorem test_assemble_pseudo : assembleLine "ENC v1, v0, k0" = some [.mul 1 (.vec 0) (.key 0), .red (.vec 1)] := by decide

/-! ## Witnesses: for every statement with hypotheses, a state and operands that meet them, at the bounds of each clause -/

theorem hellow_legal : hellow.Legal := by constructor <;> decide

theorem witness_CrrReadsControlRegister :
    (0 : Field4).toNat ≤ 6 ∧ (6 : Field4).toNat ≤ 6 ∧ State.reset.recordOk ∧ State.reset.faulted = false ∧
      2 ≤ (2 : Field4).toNat ∧ (5 : Field4).toNat ≤ 5 ∧ 7 ≤ (7 : Field4).toNat := by decide

/-- MOD takes 1 and 32767 and neither 0 nor 32768; TLEN takes 0 and 4096 and neither -1 nor 4097. -/
theorem witness_CrwWritesLegalValuesOnly :
    (∀ v ∈ [1, 32767], 1 ≤ ((startX 26 v).getX 0).toInt ∧ ((startX 26 v).getX 0).toInt ≤ 32767) ∧
    (∀ v ∈ [0, 32768, -5], ¬ (1 ≤ ((startX 26 v).getX 0).toInt ∧ ((startX 26 v).getX 0).toInt ≤ 32767)) ∧
    (∀ v ∈ [0, 4096], 0 ≤ ((startX 26 v).getX 0).toInt ∧ ((startX 26 v).getX 0).toInt ≤ 4096) ∧
    (∀ v ∈ [-1, 4097], ¬ (0 ≤ ((startX 26 v).getX 0).toInt ∧ ((startX 26 v).getX 0).toInt ≤ 4096)) ∧
    2 ≤ (2 : Field4).toNat := by decide

theorem witness_NormWritesCanonicalResidue : (startX 1 (-7)).modOk ∧ (startX 32767 (-1)).modOk := by decide

/-- Overflow in a product, overflow in a running sum only, the largest sum of canonical operands (95_test_vectors.md 2.3). -/
theorem witness_MulComputesExactProductOrFaults :
    matrixWidth ((start 26 [1, 2, 3] (3, 3, 2, 5)).matrix (.vec 0)) ≠
      matrixHeight ((start 26 [1, 2, 3] (3, 3, 2, 5)).matrix (.key 0)) ∧
    ¬ ProductFits ((start 26 [46341, 0] (46341, 0, 0, 0)).matrix (.vec 0))
      ((start 26 [46341, 0] (46341, 0, 0, 0)).matrix (.key 0)) ∧
    ¬ ProductFits ((start 26 [46340, 46340] (46340, 0, 46340, 0)).matrix (.vec 0))
      ((start 26 [46340, 46340] (46340, 0, 46340, 0)).matrix (.key 0)) ∧
    ProductFits ((start 32767 [32766, 32766] (32766, 0, 32766, 0)).matrix (.vec 0))
      ((start 32767 [32766, 32766] (32766, 0, 32766, 0)).matrix (.key 0)) := by
  unfold ProductFits partialSum
  decide

theorem witness_RedNormalisesEveryEntryInPlace :
    (start 26 [29, 41] (0, 0, 0, 0)).modOk ∧
      matrixEntry ((start 26 [29, 41] (0, 0, 0, 0)).matrix (.vec 0)) 0 1 = some 41 := by decide

theorem witness_GetReadsValidEntryOrFaults :
    ValidIndex (start 26 [7, 4] (3, 3, 2, 5)) (.vec 0) 0 1 ∧ ¬ ValidIndex (start 26 [7, 4] (3, 3, 2, 5)) (.vec 0) 0 2 ∧
    ¬ ValidIndex (start 26 [7, 4] (3, 3, 2, 5)) (.vec 0) 1 0 ∧ ValidIndex (start 26 [7, 4] (3, 3, 2, 5)) (.key 0) 1 1 ∧
    ¬ ValidIndex (start 26 [7, 4] (3, 3, 2, 5)) (.key 0) 0 2 := by unfold ValidIndex; decide

/-- The hypotheses of SET are those of GET; the other entries its frame speaks of exist too. -/
theorem witness_SetStoresValidEntryOrFaults :
    ValidIndex (start 26 [7, 4] (3, 3, 2, 5)) (.key 0) 1 0 ∧ ¬ ValidIndex (start 26 [] (3, 3, 2, 5)) (.vec 0) 0 0 ∧
      matrixEntry ((start 26 [7, 4] (3, 3, 2, 5)).matrix (.key 0)) 1 1 = some 5 := by unfold ValidIndex; decide

theorem witness_WidthAndHeightReportTheShape : (start 26 [1, 2, 3, 4, 5, 6, 7, 8] (0, 0, 0, 0)).lengthsOk := by decide

theorem witness_VnewMakesZeroVector :
    (0 : Field4).toNat ≤ 8 ∧ (8 : Field4).toNat ≤ 8 ∧ 9 ≤ (9 : Imm16).toNat ∧ 9 ≤ (0xFFFF : Imm16).toNat := by decide

/-- -2^31 fits as a product, 2^32 does not. -/
theorem witness_DetComputesDeterminantOrFaults :
    (start 26 [] (65536, 0, 0, -32768)).modOk ∧ DetFits ((start 26 [] (65536, 0, 0, -32768)).getK 0) ∧
      ¬ DetFits ((start 26 [] (65536, 0, 0, 65536)).getK 0) := by unfold DetFits; decide

theorem witness_DetinvComputesInverseOrFaults :
    (¬ DetFits ((start 26 [] (65536, 0, 0, 65536)).getK 0)) ∧
    ((start 1 [] (3, 3, 2, 5)).modOk ∧ DetFits ((start 1 [] (3, 3, 2, 5)).getK 0) ∧ (start 1 [] (3, 3, 2, 5)).modulus = 1) ∧
    ((start 26 [] (1, 2, 3, 4)).modOk ∧ DetFits ((start 26 [] (1, 2, 3, 4)).getK 0) ∧
      Int.gcd (detInt ((start 26 [] (1, 2, 3, 4)).getK 0)) (start 26 [] (1, 2, 3, 4)).modulus ≠ 1) ∧
    (start 2 [] (1, 1, 0, 1)).modOk ∧ DetFits ((start 2 [] (1, 1, 0, 1)).getK 0) ∧ 2 ≤ (start 2 [] (1, 1, 0, 1)).modulus ∧
      Int.gcd (detInt ((start 2 [] (1, 1, 0, 1)).getK 0)) (start 2 [] (1, 1, 0, 1)).modulus = 1 := by
  unfold DetFits; decide

/-- The last two clauses: the determinant -1 of [-2^31 1; 1 0] has the inverse 25 and a * 25 does not fit; [3 3; 2 5] is
inverted with 3. The first three clauses are those of DETINV. -/
theorem witness_InvComputesInverseMatrixOrFaults :
    ((start 26 [] (-2147483648, 1, 1, 0)).modOk ∧ DetFits ((start 26 [] (-2147483648, 1, 1, 0)).getK 0) ∧
      (26 : Int) ∣ detInt ((start 26 [] (-2147483648, 1, 1, 0)).getK 0) * 25 - 1 ∧
      ¬ AdjugateFits ((start 26 [] (-2147483648, 1, 1, 0)).getK 0) 25) ∧
    (start 26 [] (3, 3, 2, 5)).modOk ∧ DetFits ((start 26 [] (3, 3, 2, 5)).getK 0) ∧ 2 ≤ (start 26 [] (3, 3, 2, 5)).modulus ∧
      ((start 26 [] (3, 3, 2, 5)).modulus : Int) ∣ detInt ((start 26 [] (3, 3, 2, 5)).getK 0) * 3 - 1 ∧
      AdjugateFits ((start 26 [] (3, 3, 2, 5)).getK 0) 3 := by
  unfold DetFits AdjugateFits; decide

theorem witness_LetterToDigitOrFaults :
    LetterCode ((startX 26 65).getX 0).toInt 26 ∧ LetterCode ((startX 26 90).getX 0).toInt 26 ∧
    ¬ LetterCode ((startX 26 91).getX 0).toInt 26 ∧ ¬ LetterCode ((startX 26 64).getX 0).toInt 26 ∧
    LetterCode ((startX 32767 255).getX 0).toInt 32767 ∧ ¬ LetterCode ((startX 32767 256).getX 0).toInt 32767 := by
  unfold LetterCode; decide

theorem witness_DigitToLetterOrFaults :
    DigitValue ((startX 26 0).getX 0).toInt 26 ∧ DigitValue ((startX 26 25).getX 0).toInt 26 ∧
    ¬ DigitValue ((startX 26 26).getX 0).toInt 26 ∧ ¬ DigitValue ((startX 26 (-1)).getX 0).toInt 26 ∧
    DigitValue ((startX 32767 190).getX 0).toInt 32767 ∧ ¬ DigitValue ((startX 32767 191).getX 0).toInt 32767 := by
  unfold DigitValue; decide

/-- Address 3 is odd, 6 is out of the text of six letters, 4 is its last block; "H!" has no second letter. -/
theorem witness_LdblkLoadsBlockOrFaults :
    (3 : Imm16).toNat % 2 = 1 ∧ ((6 : Imm16).toNat % 2 = 0 ∧ hellow.textLength < (6 : Imm16).toNat + 2) ∧
    ((startText [72, 33]).tlenOk ∧ (0 : Imm16).toNat + 2 ≤ (startText [72, 33]).textLength ∧
      ¬ (LetterCode (byteAt (startText [72, 33]) 0).toNat (startText [72, 33]).modulus ∧
        LetterCode (byteAt (startText [72, 33]) 1).toNat (startText [72, 33]).modulus)) ∧
    (4 : Imm16).toNat % 2 = 0 ∧ (4 : Imm16).toNat + 2 ≤ hellow.textLength ∧ hellow.tlenOk ∧
      LetterCode (byteAt hellow 4).toNat hellow.modulus ∧ LetterCode (byteAt hellow (4 + 1)).toNat hellow.modulus := by
  unfold LetterCode; decide

theorem witness_StblkStoresBlockOrFaults :
    (hellow.textLength < (5 : Imm16).toNat + ((hellow.setV 0 [3, 15]).getV 0).length) ∧
    ((4 : Imm16).toNat + ((hellow.setV 0 [3, 26]).getV 0).length ≤ (hellow.setV 0 [3, 26]).textLength ∧
      ∃ e ∈ (hellow.setV 0 [3, 26]).getV 0, ¬ DigitValue e.toInt (hellow.setV 0 [3, 26]).modulus) ∧
    (4 : Imm16).toNat + ((hellow.setV 0 [3, 25]).getV 0).length ≤ (hellow.setV 0 [3, 25]).textLength ∧
      (hellow.setV 0 [3, 25]).tlenOk ∧
      ∀ e ∈ (hellow.setV 0 [3, 25]).getV 0, DigitValue e.toInt (hellow.setV 0 [3, 25]).modulus := by
  unfold DigitValue
  exact ⟨by decide, ⟨by decide, 26, by decide, by decide⟩, by decide, by decide, fun e he => by
    have h : e = 3 ∨ e = 25 := by simpa using he
    rcases h with rfl | rfl <;> decide⟩

/-- R120 and R123 are about every m of their range. -/
theorem witness_NormIsTheUniqueResidue : (1 ≤ 1 ∧ (0 : Int) ≤ 0 ∧ (0 : Int) < (1 : Nat)) ∧ (1 : Int) ∣ -7 - 0 := by decide
theorem witness_NormFormulaUnderBothConventions : 1 ≤ 32767 ∧ 32767 ≤ 32767 := by decide

theorem witness_ScanFindsTheModularInverse :
    (2 ≤ 2 ∧ Int.gcd 1 2 = 1 ∧ Int.gcd 24 26 ≠ 1 ∧ (0 : Int) ≤ 3 ∧ (3 : Int) < (26 : Nat) ∧ normMod (9 * 3) 26 = 1) ∧
      (32766 : Int) < (32767 : Nat) := by decide

/-- Canonical operands with the largest sum of 95_test_vectors.md 2.3, beside a register K1 that is not canonical. -/
def largest : State := (start 32767 [32766, 32766] (32766, 0, 32766, 0)).setK 1 ⟨toWord (-3), 0, 0, 0⟩

/-- One state that meets both hypotheses and in which the product runs. -/
theorem witness_CanonicalEntriesNeverOverflow :
    largest.modOk ∧ CanonicalOperands (.mul 1 (.vec 0) (.key 0)) largest ∧
      (∃ t, Retires (.mul 1 (.vec 0) (.key 0)) largest t) ∧
      ¬ 0 ≤ ((largest.getK 1).a).toInt := by
  refine ⟨by decide, fun n hn r c w h => ?_, ⟨_, rfl, rfl⟩, by decide⟩
  have hw : w = 32766 ∨ w = 0 := by
    have hn : n = .vec 0 ∨ n = .key 0 := by simpa [matrixOperands] using hn
    rcases hn with rfl | rfl
    · rw [show largest.matrix (.vec 0) = .vec [32766, 32766] by decide] at h
      match r, c with
      | 0, 0 | 0, 1 => cases h; decide
      | 0, c + 2 | r + 1, c => cases h
    · rw [show largest.matrix (.key 0) = .key ⟨32766, 0, 32766, 0⟩ by decide] at h
      match r, c with
      | 0, 0 | 0, 1 | 1, 0 | 1, 1 => cases h; decide
      | 0, c + 2 | 1, c + 2 | r + 2, c => cases h
  rcases hw with rfl | rfl <;> decide

theorem witness_DoubleInverseGivesBackTheKey :
    (∃ s1 s2, (start 26 [] (3, 3, 2, 5)).modOk ∧ Retires (.inv 1 (.key 0)) (start 26 [] (3, 3, 2, 5)) s1 ∧
      Retires (.inv 2 (.key 1)) s1 s2) ∧
    ∀ w ∈ [3, 3, 2, 5], 0 ≤ (toWord w).toInt ∧ (toWord w).toInt < (start 26 [] (3, 3, 2, 5)).modulus :=
  ⟨⟨_, _, by decide, ⟨rfl, rfl⟩, rfl, rfl⟩, by decide⟩

theorem witness_DecryptionUndoesEncryption :
    ∃ s1 s2 s3 s4 s5, (start 26 [7, 4] (3, 3, 2, 5)).modOk ∧ (start 26 [7, 4] (3, 3, 2, 5)).getV 0 = [7, 4] ∧
      Retires (.mul 1 (.vec 0) (.key 0)) (start 26 [7, 4] (3, 3, 2, 5)) s1 ∧ Retires (.red (.vec 1)) s1 s2 ∧
      Retires (.inv 1 (.key 0)) s2 s3 ∧ Retires (.mul 2 (.vec 1) (.key 1)) s3 s4 ∧ Retires (.red (.vec 2)) s4 s5 :=
  ⟨_, _, _, _, _, by decide, by decide, ⟨rfl, rfl⟩, ⟨rfl, rfl⟩, ⟨rfl, rfl⟩, ⟨rfl, rfl⟩, rfl, rfl⟩

/-- The state `u` of the first half can be the state right after the load. -/
theorem witness_CodecRoundTrip :
    hellow.tlenOk ∧ (∃ s1, Retires (.ldblk 0 4) hellow s1) ∧ (4 : Imm16).toNat % 2 = 0 ∧
      ((hellow.setV 0 [3, 15]).getV 0).length = 2 ∧ ∃ s1, Retires (.stblk 0 4) (hellow.setV 0 [3, 15]) s1 :=
  ⟨by decide, ⟨_, rfl, rfl⟩, by decide, by decide, _, rfl, rfl⟩

theorem witness_LettersAndDigitsAreInverse :
    (∃ s1, Retires (.l2d 1 0) (startX 26 90) s1) ∧ ∃ s1, Retires (.d2l 1 0) (startX 26 25) s1 :=
  ⟨⟨_, rfl, rfl⟩, _, rfl, rfl⟩

/-- Two states that agree on K0 and MOD and on nothing else that matters, in which the three commands retire; and two
that agree so in which they fault. -/
theorem witness_DeterminantCommandsReadOnlyKeyAndModulus :
    (start 26 [7] (3, 3, 2, 5)).getK 0 = (start 26 [] (3, 3, 2, 5)).getK 0 ∧
    (start 26 [7] (3, 3, 2, 5)).mod = (start 26 [] (3, 3, 2, 5)).mod ∧
    (∃ t, Retires (.det 0 (.key 0)) (start 26 [7] (3, 3, 2, 5)) t) ∧
    (∃ t, Retires (.detinv 0 (.key 0)) (start 26 [7] (3, 3, 2, 5)) t) ∧
    (∃ t, Retires (.inv 1 (.key 0)) (start 26 [7] (3, 3, 2, 5)) t) ∧
    (start 26 [7] (65536, 0, 0, 65536)).getK 0 = (start 26 [] (65536, 0, 0, 65536)).getK 0 ∧
    ∀ i ∈ [Instr.det 0 (.key 0), .detinv 0 (.key 0), .inv 1 (.key 0)],
      ∃ t, exec i (start 26 [7] (65536, 0, 0, 65536)) = .next t ∧
        Faults (encode i) .arithOverflow (start 26 [7] (65536, 0, 0, 65536)) t := by
  refine ⟨by decide, by decide, ⟨_, rfl, rfl⟩, ⟨_, rfl, rfl⟩, ⟨_, rfl, rfl⟩, by decide, fun i hi => ?_⟩
  refine ⟨_, ?_, faults_enterFault _ _ _⟩
  have hi : i = .det 0 (.key 0) ∨ i = .detinv 0 (.key 0) ∨ i = .inv 1 (.key 0) := by simpa using hi
  rcases hi with rfl | rfl | rfl <;> rfl

theorem witness_DecodeOfEncode : (Instr.vnew 3 8).wellFormed = true ∧ (Instr.crr 7 6).wellFormed = true := by decide
theorem witness_EncodeOfDecode : decode 0x32B00000 = .ok (.inv 1 (.key 0)) := by decide

/-- A command that retires and one that faults. -/
theorem witness_CommandsRetireOrFaultPrecisely :
    (∃ t, exec (.li 0 1) State.reset = .next t) ∧ ∃ t, exec (.inv 1 (.key 0)) State.reset = .next t :=
  ⟨⟨_, rfl⟩, _, rfl⟩

theorem witness_EveryCommandEndsInANextState : State.reset.tlenOk ∧ { State.reset with tlen := 4096 }.tlenOk := by decide

theorem witness_FaultedUnitDiscardsCommands : (enterFault .invalidIndex 0x22200000 State.reset).faulted = true := by decide

theorem witness_IllegalWordsEnterIllegalCommand :
    State.reset.faulted = false ∧ decode 0xFFFFFFFF = .error .unassignedOpcode := by decide

theorem witness_OnlyAResetClearsTheFault :
    (enterFault .invalidIndex 0 State.reset).faulted = true ∧
      ∃ t, perform (.write .word 0x00004 1) (enterFault .invalidIndex 0 State.reset) = .next t ∧ t.faulted = false :=
  ⟨by decide, _, rfl, by decide⟩

theorem witness_CtrlWritePerformsSoftReset :
    (0xFFFFFFFE : Word).getLsbD 0 = false ∧ (1 : Word).getLsbD 0 = true := by decide

theorem witness_CommandsRightAfterReset :
    softReset hellow = softReset hellow ∧ hardReset hellow = hardReset hellow ∧ (1 : Imm16) ≠ 0 := by decide

theorem witness_StepRunsTheDecodedCommand :
    (State.reset.withFetchWord 32 0x0120001A).input = [.write .word 0x00000 0x0120001A] ∧
      (State.reset.withFetchWord 32 0x0120001A).faulted = false ∧ decode 0x0120001A = .ok (.li 1 26) := by decide

theorem witness_StepPerformsTheNextAction :
    ({ State.reset with input := [.hardReset] } : State).input = [.hardReset] ∧ State.reset.input = [] := by decide

theorem witness_EveryStepKeepsTheStateLegal :
    (State.reset.withFetchWord 32 0x0120001A).Legal ∧ ∃ t, step (State.reset.withFetchWord 32 0x0120001A) = .next t :=
  ⟨by constructor <;> decide, _, rfl⟩

/-- Both ends of a step of a legal state occur. -/
theorem witness_LegalStatesStepOrRefuseAnUndefinedAccess :
    hellow.Legal ∧ ({ State.reset with input := [.read .half 0] } : State).Legal :=
  ⟨hellow_legal, by constructor <;> decide⟩

theorem witness_WellEndedRunCountsItsCommands :
    ∃ t, State.reset.faulted = false ∧ performAll (commandActions [0x0100FFFF, 0x02000000]) State.reset = .next t ∧
      t.EndedWell := ⟨_, by decide, rfl, rfl⟩

theorem witness_FaultedRunRecordsTheFaultingCommand :
    ∃ t, State.reset.faulted = false ∧ performAll (commandActions [0x01000007, 0x22200000, 0x03000000]) State.reset = .next t ∧
      t.faulted = true := ⟨_, by decide, rfl, rfl⟩

theorem witness_OnlyCrwWritesModAndTlen :
    (∃ t, exec (.crw 1 0) State.reset = .next t) ∧ (∀ xs, Instr.crw 1 0 ≠ .crw 0 xs) ∧
      (∃ t, exec .nop State.reset = .next t) ∧ ∀ xs, Instr.nop ≠ .crw 1 xs :=
  ⟨⟨_, rfl⟩, by decide, ⟨_, rfl⟩, by decide⟩

theorem witness_CommandsWriteOnlyTheirOwnKindOfRegister :
    (∃ t, exec (.red (.key 0)) State.reset = .next t) ∧ ∃ t, exec (.set (.vec 0) 0 0 0) State.reset = .next t :=
  ⟨⟨_, rfl⟩, _, rfl⟩

theorem witness_EntriesFollowTheLayout : (2 ≤ 2 ∨ 2 ≤ 0) ∧ 0 < [(5 : Word)].length ∧ (1 ≤ 0 ∨ [(5 : Word)].length ≤ 1) := by
  decide

theorem witness_TextMemoryReadsTheLatestWrite : 0 < 4096 ∧ 4095 < 4096 ∧ 4096 ≤ 4096 ∧ memWf State.reset.tmem = true := by
  decide

theorem witness_CanonicalMemoriesWithEqualBytesAreEqual :
    memWf hellow.tmem = true ∧ memWf (memSet hellow.tmem 0 72) = true ∧
      ∀ a, memGet hellow.tmem a = memGet (memSet hellow.tmem 0 72) a := ⟨by decide, by decide, fun _ => rfl⟩

/-- The first and the last word of each group of read-only locations; and a write to an unassigned offset on either side of
text memory that gives a next state. -/
theorem witness_WindowAccessesLeaveTheRegisters :
    (∃ t, perform (.read .word 0x00040) State.reset = .next t) ∧
    (∀ o ∈ [0x40, 0x58, 0x80, 0x9C, 0x100, 0x120, 0x1C0, 0x1E0, 0x200, 0x23C],
      (BitVec.ofNat 17 o).toNat % 4 = 0 ∧ RegisterOffset (BitVec.ofNat 17 o).toNat) ∧
    (8 ≤ (0x00008 : BitVec 17).toNat ∧ (0x00008 : BitVec 17).toNat < 0x10000 ∧
      ∃ t, perform (.write .word 0x00008 5) State.reset = .next t) ∧
    0x11000 ≤ (0x11000 : BitVec 17).toNat ∧ ∃ t, perform (.write .byte 0x11000 5) State.reset = .next t := by
  refine ⟨⟨_, rfl⟩, ?_, ⟨by decide, by decide, _, rfl⟩, by decide, _, rfl⟩
  unfold RegisterOffset
  simp

/-- The bytes and the words next to the table's locations. -/
theorem witness_UnassignedOffsetsReadZero :
    (∀ o ∈ ([0x8, 0x3F, 0x5C, 0x7F, 0xA0, 0xFF, 0x124, 0x13F, 0x1E4, 0x1FF, 0x240, 0xFFFF, 0x11000, 0x1FFFF] :
        List (BitVec 17)), ¬ AssignedOffset o.toNat) ∧
    ∀ o ∈ ([0x8, 0x3C, 0x5C, 0x7C, 0xA0, 0xFC, 0x124, 0x13C, 0x1E4, 0x1FC, 0x240, 0xFFFC, 0x11000, 0x1FFFC] :
        List (BitVec 17)), o.toNat % 4 = 0 ∧ ∀ i < 4, ¬ AssignedOffset (o.toNat + i) := by
  unfold AssignedOffset RegisterOffset
  refine ⟨by simp, ?_⟩
  simp only [List.forall_mem_cons, List.not_mem_nil, IsEmpty.forall_iff, implies_true, and_true]
  refine ⟨?_, ?_, ?_, ?_, ?_, ?_, ?_, ?_, ?_, ?_, ?_, ?_, ?_, ?_⟩ <;>
    exact ⟨by decide, fun i hi => by simp; omega⟩

theorem witness_WindowReadsAndWritesText : 0 < 4096 ∧ 4095 < 4096 := by decide

theorem witness_UndefinedWindowAccessesAreRefused :
    ∀ o ∈ ([0x0, 0x7, 0x40, 0x5B, 0x9F, 0x123, 0x1E3, 0x23F, 0x10000, 0x10FFF] : List (BitVec 17)),
      AssignedOffset o.toNat := by
  unfold AssignedOffset RegisterOffset; simp

end Sys2Proof.Tests
end

section
/-! PROOFS. The end of a command (00_scope.md R10): it retires and the fault record is kept, or it enters one fault and
writes nothing else. -/

namespace Sys2Proof.Machine

/-- No command writes CIX or the fault record itself: before it retires they hold their old values (R39, R40). -/
theorem effect_keeps_cix_and_record (i : Instr) (s u : State) (h : Effect i s u) :
    u.cix = s.cix ∧ u.status = s.status ∧ u.cause = s.cause ∧ u.fcix = s.fcix ∧ u.fcmd = s.fcmd := by
  cases i with
  | nop =>
    obtain rfl := h
    exact ⟨rfl, rfl, rfl, rfl, rfl⟩
  | li | lih | crr | norm | get | width | height | det | detinv | l2d | d2l =>
    obtain ⟨w, rfl⟩ := h
    simp
  | crw =>
    obtain ⟨-, -, -, rfl⟩ | ⟨-, -, -, rfl⟩ := h <;> simp
  | mul | vnew | ldblk =>
    obtain ⟨es, -, rfl⟩ := h
    simp
  | inv =>
    obtain ⟨m, rfl⟩ := h
    simp
  | red ma | set ma =>
    cases ma with
    | vec j =>
      obtain ⟨es, -, rfl⟩ := h
      simp
    | key j =>
      obtain ⟨m, rfl⟩ := h
      simp
  | stblk =>
    obtain ⟨m, -, rfl⟩ := h
    simp

/-- Settles O34, by the two ways a command gives a next state (`exec_next`): its writes and the advance of CIX, or fault
entry from the state before it. -/
theorem commandsRetireOrFaultPrecisely : Obligations.CommandsRetireOrFaultPrecisely := by
  intro i s t h
  rcases exec_next i s t h with ⟨u, hu, rfl⟩ | ⟨c, rfl⟩
  · obtain ⟨hcix, hrecord⟩ := effect_keeps_cix_and_record i s u hu
    exact .inl ⟨congrArg (· + 1) hcix, hrecord⟩
  · exact .inr ⟨c, faults_enterFault s c (encode i)⟩

end Sys2Proof.Machine
end

section
/-! PROOFS. All that a command writes, whichever command it is: at most one register, one control register or text memory.
From it, which commands write MOD and TLEN and which kind of storage each command writes. -/

namespace Sys2Proof.Machine

/-- `u` is `s` with at most one write of the command `i`, of a value its rule allows (R24, R33, R34). -/
inductive OneWrite (i : Instr) (s : State) : State → Prop where
  | nothing : OneWrite i s s
  | scalar (xd : XReg) (w : Word) : OneWrite i s (s.setX xd w)
  | vector (vd : VReg) (es : List Word) (hlen : s.lengthsOk → es.length ≤ 8) : OneWrite i s (s.setV vd es)
  | key (kd : KReg) (m : KeyMatrix) : OneWrite i s (s.setK kd m)
  | modulus (xs : XReg) (w : Word) (hi : i = .crw 0 xs) (hlo : 1 ≤ w.toInt) (hhi : w.toInt ≤ 32767) :
      OneWrite i s { s with mod := w }
  | length (xs : XReg) (w : Word) (hi : i = .crw 1 xs) (hlo : 0 ≤ w.toInt) (hhi : w.toInt ≤ 4096) :
      OneWrite i s { s with tlen := w }
  | text (m : Memory) (hwf : memWf s.tmem = true → memWf m = true) : OneWrite i s { s with tmem := m }

theorem matrixWidth_le (s : State) (n : MReg) (h : s.lengthsOk) : matrixWidth (s.matrix n) ≤ 8 := by
  cases n with
  | vec j => exact h j
  | key j => exact (by decide : 2 ≤ 8)

theorem oneWrite_of_effect (i : Instr) (s u : State) (h : Effect i s u) : OneWrite i s u := by
  cases i with
  | nop =>
    obtain rfl := h
    exact .nothing
  | li | lih | crr | norm | get | width | height | det | detinv | l2d | d2l =>
    obtain ⟨w, rfl⟩ := h
    exact .scalar _ w
  | crw cr xs =>
    obtain ⟨rfl, hlo, hhi, rfl⟩ | ⟨rfl, hlo, hhi, rfl⟩ := h
    · exact .modulus xs _ rfl hlo hhi
    · exact .length xs _ rfl hlo hhi
  | mul vd ma mb =>
    obtain ⟨es, hes, rfl⟩ := h
    exact .vector _ es fun hlen => hes ▸ matrixWidth_le s mb hlen
  | vnew =>
    obtain ⟨es, hes, rfl⟩ := h
    exact .vector _ es fun _ => hes
  | ldblk =>
    obtain ⟨es, hes, rfl⟩ := h
    exact .vector _ es fun _ => by omega
  | inv =>
    obtain ⟨m, rfl⟩ := h
    exact .key _ m
  | red ma | set ma =>
    cases ma with
    | vec j =>
      obtain ⟨es, hes, rfl⟩ := h
      exact .vector _ es fun hlen => hes ▸ hlen j
    | key j =>
      obtain ⟨m, rfl⟩ := h
      exact .key _ m
  | stblk =>
    obtain ⟨m, hwf, rfl⟩ := h
    exact .text m hwf

/-- Settles O50, by the cases of the one write a command can make (`OneWrite`); fault entry writes neither register. -/
theorem onlyCrwWritesModAndTlen : Obligations.OnlyCrwWritesModAndTlen := by
  intro i s t h
  rcases exec_next i s t h with ⟨u, hu, rfl⟩ | ⟨c, rfl⟩
  · cases oneWrite_of_effect i s u hu with
    | nothing | scalar | vector | key | text => exact ⟨fun _ => rfl, fun _ => rfl⟩
    | modulus xs w hi => exact ⟨fun hne => absurd hi (hne xs), fun _ => rfl⟩
    | length xs w hi => exact ⟨fun _ => rfl, fun hne => absurd hi (hne xs)⟩
  · exact ⟨fun _ => rfl, fun _ => rfl⟩

/-- The registers and the text after a command are those of a state `u` that the command's writes gave, or, where it
faulted, of the state before it (R10). -/
theorem exec_next_storage (i : Instr) (s t : State) (h : exec i s = .next t) :
    ∃ u, (Effect i s u ∨ u = s) ∧ SameX u t ∧ SameV u t ∧ SameK u t ∧ SameText u t := by
  rcases exec_next i s t h with ⟨u, hu, rfl⟩ | ⟨c, rfl⟩
  · exact ⟨u, .inl hu, fun _ => rfl, fun _ => rfl, fun _ => rfl, fun _ => rfl⟩
  · exact ⟨s, .inr rfl, fun _ => rfl, fun _ => rfl, fun _ => rfl, fun _ => rfl⟩

/-- Settles O51, by cases on the command: its write, as `Effect` states it, is to one kind of storage, and reads of every
other kind do not see it. -/
theorem commandsWriteOnlyTheirOwnKindOfRegister : Obligations.CommandsWriteOnlyTheirOwnKindOfRegister := by
  intro i s t h
  obtain ⟨u, hu, hx, hv, hk, ht⟩ := exec_next_storage i s t h
  cases i with
  | nop =>
    obtain rfl | rfl := hu <;> exact ⟨hx, hv, hk, ht⟩
  | crw =>
    obtain (⟨-, -, -, rfl⟩ | ⟨-, -, -, rfl⟩) | rfl := hu <;> exact ⟨hx, hv, hk, ht⟩
  | li | lih | crr | norm | get | width | height | det | detinv | l2d | d2l =>
    obtain ⟨w, rfl⟩ | rfl := hu <;> exact ⟨hv, hk, ht⟩
  | mul | vnew | ldblk =>
    obtain ⟨es, -, rfl⟩ | rfl := hu <;> exact ⟨hx, hk, ht⟩
  | inv =>
    obtain ⟨m, rfl⟩ | rfl := hu <;> exact ⟨hx, hv, ht⟩
  | red ma | set ma =>
    cases ma with
    | vec j => obtain ⟨es, -, rfl⟩ | rfl := hu <;> exact ⟨hx, hk, ht⟩
    | key j => obtain ⟨m, rfl⟩ | rfl := hu <;> exact ⟨hx, hv, ht⟩
  | stblk =>
    obtain ⟨m, -, rfl⟩ | rfl := hu <;> exact ⟨hx, hv, hk⟩

end Sys2Proof.Machine
end

section
/-! PROOFS. The two resets (10_state.md R42, 70_reset_and_hazards.md R230): the reset column, the soft reset through CTRL,
the reset input. -/

namespace Sys2Proof.Machine

/-- Every register has its value of the reset table (R42). -/
def HoldsResetValues (t : State) : Prop :=
  (∀ r, t.getX r = 0) ∧ (∀ j, t.getV j = []) ∧ (∀ j, t.getK j = ⟨0, 0, 0, 0⟩) ∧
    t.mod = 26 ∧ t.tlen = 0 ∧ t.status = 0 ∧ t.cause = 0 ∧ t.fcix = 0 ∧ t.fcmd = 0 ∧ t.cix = 0

@[simp] theorem getX_reset (r : XReg) : State.reset.getX r = 0 := by simp [State.getX, State.reset]
@[simp] theorem getV_reset (j : VReg) : State.reset.getV j = [] := by simp [State.getV, State.reset]
@[simp] theorem getK_reset (j : KReg) : State.reset.getK j = KeyMatrix.zero := by simp [State.getK, State.reset]

theorem holdsResetValues_reset : HoldsResetValues State.reset :=
  ⟨getX_reset, getV_reset, getK_reset, rfl, rfl, rfl, rfl, rfl, rfl, rfl⟩

/-- The soft reset keeps the model's own fields and text memory, none of which is a register (R230 b). -/
theorem holdsResetValues_softReset (s : State) : HoldsResetValues (softReset s) := holdsResetValues_reset

theorem holdsResetValues_hardReset (s : State) : HoldsResetValues (hardReset s) := holdsResetValues_reset

theorem perform_write_ctrl (v : Word) (s : State) :
    perform (.write .word 0x00004 v) s = .next (writeCtrl v s) := rfl

theorem writeCtrl_eq (v : Word) (s : State) : writeCtrl v s = if v.getLsbD 0 = true then softReset s else s := rfl

/-- Settles O39: the write reaches CTRL, and bit 0 decides between the soft reset and the same state. -/
theorem ctrlWritePerformsSoftReset : Obligations.CtrlWritePerformsSoftReset := by
  intro v s
  rw [perform_write_ctrl, writeCtrl_eq]
  constructor
  · intro h
    rw [if_neg (Bool.eq_false_iff.1 h)]
  · intro h
    rw [if_pos h]
    obtain ⟨hx, hv, hk, hmod, htlen, hstatus, hcause, hfcix, hfcmd, hcix⟩ := holdsResetValues_softReset s
    exact ⟨softReset s, rfl, hx, hv, hk, hmod, htlen, hstatus, hcause, hfcix, hfcmd, hcix, fun _ => rfl⟩

/-- Settles O40. -/
theorem hardResetGivesResetRegisters : Obligations.HardResetGivesResetRegisters :=
  fun s => ⟨hardReset s, rfl, holdsResetValues_hardReset s⟩

end Sys2Proof.Machine
end

section
/-! PROOFS. The invariant of the reachable states (10_state.md R24, R33 to R37): every update of the state keeps it, hence
every command, every action of the host and every step. -/

namespace Sys2Proof.Machine

/-- The causes have the codes 1 to 10 (R36, R200). -/
theorem causeCode_bounds (c : Cause) : 1 ≤ (causeCode c).toNat ∧ (causeCode c).toNat ≤ 10 := by
  cases c <;> decide

/-! ## Updates of the state -/

section
variable {s : State} (h : s.Legal)
include h

theorem State.Legal.setV (vd : VReg) (es : List Word) (hes : es.length ≤ 8) : (s.setV vd es).Legal where
  mod_ok := h.mod_ok
  tlen_ok := h.tlen_ok
  lengths_ok j := by
    rw [getV_setV]
    split
    · exact hes
    · exact h.lengths_ok j
  record_ok := h.record_ok
  tmem_ok := h.tmem_ok

/-- A word that CRW accepts as a modulus is one as an unsigned number too (R33). -/
theorem State.Legal.writeMod (w : Word) (hlo : 1 ≤ w.toInt) (hhi : w.toInt ≤ 32767) :
    ({ s with mod := w } : State).Legal where
  mod_ok := by
    have := BitVec.toInt_eq_toNat_cond w
    change 1 ≤ w.toNat ∧ w.toNat ≤ 32767
    omega
  tlen_ok := h.tlen_ok
  lengths_ok := h.lengths_ok
  record_ok := h.record_ok
  tmem_ok := h.tmem_ok

/-- A word that CRW accepts as a text length is one as an unsigned number too (R34). -/
theorem State.Legal.writeTlen (w : Word) (hlo : 0 ≤ w.toInt) (hhi : w.toInt ≤ 4096) :
    ({ s with tlen := w } : State).Legal where
  mod_ok := h.mod_ok
  tlen_ok := by
    have := BitVec.toInt_eq_toNat_cond w
    change w.toNat ≤ 4096
    omega
  lengths_ok := h.lengths_ok
  record_ok := h.record_ok
  tmem_ok := h.tmem_ok

theorem State.Legal.writeTmem (m : Memory) (hm : memWf m = true) : ({ s with tmem := m } : State).Legal :=
  ⟨h.mod_ok, h.tlen_ok, h.lengths_ok, h.record_ok, hm⟩

/-- One write of a command keeps the invariant: the values it may write are legal ones. -/
theorem State.Legal.oneWrite {i : Instr} {u : State} (hu : OneWrite i s u) : u.Legal := by
  cases hu with
  | nothing => exact h
  | scalar | key => exact ⟨h.mod_ok, h.tlen_ok, h.lengths_ok, h.record_ok, h.tmem_ok⟩
  | vector vd es hlen => exact h.setV vd es (hlen h.lengths_ok)
  | modulus xs w hi hlo hhi => exact h.writeMod w hlo hhi
  | length xs w hi hlo hhi => exact h.writeTlen w hlo hhi
  | text m hwf => exact h.writeTmem m (hwf h.tmem_ok)

/-- While FAULT = 0 the fault record is empty (R35 to R37). -/
theorem State.Legal.record_empty (hf : s.faulted = false) :
    s.status = 0 ∧ s.cause = 0 ∧ s.fcix = 0 ∧ s.fcmd = 0 := by
  rcases h.record_ok with hempty | ⟨hstatus, -⟩
  · exact hempty
  · simp [State.faulted, hstatus] at hf

/-- The premise is needed: the record of a fault names the value of CIX, which a faulted unit keeps. -/
theorem State.Legal.retire (hf : s.faulted = false) : (retire s).Legal :=
  ⟨h.mod_ok, h.tlen_ok, h.lengths_ok, .inl (h.record_empty hf), h.tmem_ok⟩

theorem State.Legal.enterFault (hf : s.faulted = false) (c : Cause) (w : Word) : (enterFault c w s).Legal where
  mod_ok := h.mod_ok
  tlen_ok := h.tlen_ok
  lengths_ok := h.lengths_ok
  record_ok := by
    obtain ⟨hstatus, -⟩ := h.record_empty hf
    obtain ⟨hlo, hhi⟩ := causeCode_bounds c
    exact .inr ⟨by simp [hstatus], hlo, hhi, rfl⟩
  tmem_ok := h.tmem_ok

end

/-! ## Resets -/

/-- The invariant asks of a state with the reset values only that its text memory is in canonical form. -/
theorem HoldsResetValues.legal {t : State} (ht : HoldsResetValues t) (hm : memWf t.tmem = true) : t.Legal := by
  obtain ⟨-, hv, -, hmod, htlen, hstatus, hcause, hfcix, hfcmd, -⟩ := ht
  exact
    { mod_ok := by simp [State.modOk, State.modulus, hmod]
      tlen_ok := by simp [State.tlenOk, State.textLength, htlen]
      lengths_ok := fun j => by simp [hv]
      record_ok := .inl ⟨hstatus, hcause, hfcix, hfcmd⟩
      tmem_ok := hm }

/-- Settles O46. -/
theorem resetStateIsLegal : Obligations.ResetStateIsLegal := holdsResetValues_reset.legal rfl

/-! ## Commands, actions of the host, steps -/

section
variable {s t : State} (h : s.Legal)
include h

/-- A command is executed only while FAULT = 0 (R204). -/
theorem State.Legal.exec {i : Instr} (hf : s.faulted = false) (ht : exec i s = .next t) : t.Legal := by
  rcases exec_next i s t ht with ⟨u, hu, rfl⟩ | ⟨c, rfl⟩
  · obtain ⟨-, hstatus, -⟩ := effect_keeps_cix_and_record i s u hu
    have hfu : u.faulted = false := by rw [State.faulted, hstatus]; exact hf
    exact (h.oneWrite (oneWrite_of_effect i s u hu)).retire hfu
  · exact h.enterFault hf c (encode i)

theorem State.Legal.issue {w : Word} (ht : issue w s = .next t) : t.Legal := by
  cases hf : s.faulted with
  | true =>
    rw [issue_of_faulted w s hf] at ht
    cases ht
    exact h
  | false =>
    rcases issue_of_not_faulted w s hf with ⟨i, -, hi⟩ | ⟨e, -, he⟩
    · exact h.exec hf (hi ▸ ht)
    · rw [he] at ht
      cases ht
      exact h.enterFault hf .illegalCommand w

theorem State.Legal.writeCtrl (v : Word) : (writeCtrl v s).Legal := by
  rw [writeCtrl_eq]
  split
  · exact (holdsResetValues_softReset s).legal h.tmem_ok
  · exact h

theorem State.Legal.windowWrite {width : BusWidth} {offset : BitVec 17} {v : Word}
    (ht : windowWrite width offset v s = .next t) : t.Legal := by
  rcases windowWrite_cases width offset v s with
    ⟨-, -, hw⟩ | ⟨-, -, hw⟩ | ⟨a, ha, -, -, hw⟩ | hw | ⟨-, hw⟩
  · exact h.issue (hw ▸ ht)
  all_goals rw [hw] at ht; cases ht
  · exact h.writeCtrl v
  · exact h.writeTmem _ (memWf_memSet s.tmem a _ ha h.tmem_ok)
  · exact h

theorem State.Legal.perform {a : HostAction} (ht : perform a s = .next t) : t.Legal := by
  cases a with
  | hardReset =>
    cases ht
    exact (holdsResetValues_hardReset s).legal rfl
  | write width offset v => exact h.windowWrite ht
  | read width offset =>
    simp only [Machine.perform] at ht
    split at ht <;> cases ht
    exact ⟨h.mod_ok, h.tlen_ok, h.lengths_ok, h.record_ok, h.tmem_ok⟩

end

/-- Settles O45: a step is idle or performs one action of the host, and each action keeps the invariant. -/
theorem everyStepKeepsTheStateLegal : Obligations.EveryStepKeepsTheStateLegal := by
  intro s t h ht
  simp only [step, nextAction] at ht
  split at ht
  · cases ht
    exact h
  next action rest _ =>
    have hrest : ({ s with input := rest } : State).Legal :=
      ⟨h.mod_ok, h.tlen_ok, h.lengths_ok, h.record_ok, h.tmem_ok⟩
    exact hrest.perform ht

end Sys2Proof.Machine
end

section
/-! PROOFS. Termination of commands (R241): the model's own stop is an access to text memory at or above TMEM_SIZE,
which only LDBLK and STBLK could make, and with a legal TLEN their range checks come first. -/

namespace Sys2Proof.Machine

/-- A result that is not the model's own stop: a value, or a fault of MAU. -/
def StaysInside {α : Type} (r : Except Abort α) : Prop := ∀ f, r ≠ .error (.outside f)

section
variable {α β : Type}

theorem staysInside_ok (a : α) : StaysInside (.ok a : Except Abort α) := nofun

theorem staysInside_raise (c : Cause) : StaysInside (.error (.raise c) : Except Abort α) := nofun

theorem StaysInside.map {r : Except Abort α} (h : StaysInside r) (g : α → β) : StaysInside (r.map g) := by
  rcases r with (c | f) | a
  · exact staysInside_raise c
  · exact absurd rfl (h f)
  · exact staysInside_ok (g a)

/-- An error of a part, handed on as the error of the whole. -/
theorem StaysInside.error {r : Except Abort α} (h : StaysInside r) {e : Abort} (he : r = .error e) :
    StaysInside (.error e : Except Abort β) := by
  rintro f ⟨⟩
  exact h f he

end

/-! ## The parts of the commands -/

theorem staysInside_chk (v : Int) : StaysInside (chk v) := by
  rw [chk_eq]
  split
  · exact staysInside_ok v
  · exact staysInside_raise _

theorem staysInside_dotFrom (acc : Int) (us ws : List Word) : StaysInside (dotFrom acc us ws) := by
  induction us generalizing acc ws with
  | nil => exact staysInside_ok acc
  | cons u us ih =>
    cases ws with
    | nil => exact staysInside_ok acc
    | cons w ws =>
      simp only [dotFrom]
      split
      next he => exact (staysInside_chk _).error he
      next =>
        split
        next he => exact (staysInside_chk _).error he
        next sum _ => exact ih sum ws

theorem staysInside_rowTimes (row : List Word) (columns : List (List Word)) : StaysInside (rowTimes row columns) := by
  induction columns with
  | nil => exact staysInside_ok []
  | cons column rest ih =>
    simp only [rowTimes]
    split
    next he => exact (staysInside_dotFrom 0 row column).error he
    next =>
      split
      next he => exact ih.error he
      next => exact staysInside_ok _

theorem staysInside_multiply (a b : MatrixValue) : StaysInside (multiply a b) := by
  cases a with
  | key m => exact staysInside_raise _
  | vec row =>
    rw [multiply_vec]
    split
    · exact staysInside_rowTimes _ _
    · exact staysInside_raise _

theorem staysInside_determinant (k : KeyMatrix) (m : Nat) : StaysInside (determinant k m) := by
  by_cases h : DetFits k
  · rw [determinant_of_fits k m h]
    exact staysInside_ok _
  · rw [determinant_of_not_fits k m h]
    exact staysInside_raise _

theorem staysInside_determinantInverse (dt : Int) (m : Nat) : StaysInside (determinantInverse dt m) := by
  unfold determinantInverse
  split
  · exact staysInside_ok _
  · exact staysInside_raise _

theorem staysInside_inverseOfDeterminant (k : KeyMatrix) (m : Nat) : StaysInside (inverseOfDeterminant k m) := by
  unfold inverseOfDeterminant
  split
  next he => exact (staysInside_determinant k m).error he
  next => exact staysInside_determinantInverse _ m

theorem staysInside_scaledAdjugate (k : KeyMatrix) (di : Int) (m : Nat) : StaysInside (scaledAdjugate k di m) := by
  by_cases h : AdjugateFits k di
  · rw [scaledAdjugate_of_fits k di m h]
    exact staysInside_ok _
  · rw [scaledAdjugate_of_not_fits k di m h]
    exact staysInside_raise _

theorem staysInside_inverseKey (k : KeyMatrix) (m : Nat) : StaysInside (inverseKey k m) := by
  unfold inverseKey
  split
  next he => exact (staysInside_inverseOfDeterminant k m).error he
  next => exact staysInside_scaledAdjugate k _ m

theorem staysInside_keyOperand (s : State) (n : MReg) : StaysInside (keyOperand s n) := by
  cases n with
  | vec j => exact staysInside_raise _
  | key j => exact staysInside_ok _

theorem staysInside_controlWrite (s : State) (n : Nat) (w : Word) : StaysInside (controlWrite s n w) := by
  match n with
  | 0 =>
    rw [controlWrite_mod]
    split
    · exact staysInside_ok _
    · exact staysInside_raise _
  | 1 =>
    rw [controlWrite_tlen]
    split
    · exact staysInside_ok _
    · exact staysInside_raise _
  | n + 2 => exact staysInside_raise _

theorem staysInside_letterToDigit (b : Int) (m : Nat) : StaysInside (letterToDigit b m) := by
  by_cases h : LetterCode b m
  · rw [letterToDigit_of_letter b m h]
    exact staysInside_ok _
  · rw [letterToDigit_of_not_letter b m h]
    exact staysInside_raise _

theorem staysInside_digitToLetter (d : Int) (m : Nat) : StaysInside (digitToLetter d m) := by
  by_cases h : DigitValue d m
  · rw [digitToLetter_of_digit d m h]
    exact staysInside_ok _
  · rw [digitToLetter_of_not_digit d m h]
    exact staysInside_raise _

theorem staysInside_decodeBlock (b0 b1 : Byte) (m : Nat) : StaysInside (decodeBlock b0 b1 m) := by
  by_cases h : LetterCode b0.toNat m ∧ LetterCode b1.toNat m
  · obtain ⟨h0, h1⟩ := h
    rw [decodeBlock_letters b0 b1 m h0 h1]
    exact staysInside_ok _
  · rw [decodeBlock_not_letters b0 b1 m h]
    exact staysInside_raise _

/-- The alignment and range checks of LDBLK come before its reads, so these are inside the text and, with a legal TLEN,
inside text memory (R62, R169). -/
theorem staysInside_loadBlock (s : State) (a : Nat) (h : s.tlenOk) : StaysInside (loadBlock s a) := by
  by_cases hodd : a % 2 = 1
  · rw [loadBlock_odd s a hodd]
    exact staysInside_raise _
  have heven : a % 2 = 0 := by omega
  by_cases hrange : s.textLength < a + 2
  · rw [loadBlock_outside s a heven hrange]
    exact staysInside_raise _
  · rw [loadBlock_inside s a heven (by omega) h]
    exact staysInside_decodeBlock _ _ _

/-- The range check of STBLK comes before its writes (R63, R171). -/
theorem staysInside_storeBlock (s : State) (a : Nat) (es : List Word) (h : s.tlenOk) :
    StaysInside (storeBlock s a es) := by
  by_cases hrange : s.textLength < a + es.length
  · rw [storeBlock_outside s a es hrange]
    exact staysInside_raise _
  have hin : a + es.length ≤ s.textLength := by omega
  by_cases hdigits : ∀ e ∈ es, DigitValue e.toInt s.modulus
  · obtain ⟨m, hm, -⟩ := storeBlock_digits s a es hin h hdigits
    rw [hm]
    exact staysInside_ok _
  · rw [storeBlock_not_digits s a es hin (by simpa using hdigits)]
    exact staysInside_raise _

/-! ## The commands -/

theorem exec_eq_complete_staysInside (i : Instr) (s : State) (h : s.tlenOk) :
    ∃ r, exec i s = complete i s r ∧ StaysInside r := by
  cases i with
  | nop | li | lih | norm | width | height => exact ⟨_, rfl, staysInside_ok _⟩
  | crr | get | set | vnew =>
    refine ⟨_, rfl, ?_⟩
    split
    · exact staysInside_ok _
    · exact staysInside_raise _
  | red ma =>
    refine ⟨_, rfl, ?_⟩
    cases ma <;> exact staysInside_ok _
  | crw => exact ⟨_, rfl, staysInside_controlWrite _ _ _⟩
  | mul => exact ⟨_, rfl, (staysInside_multiply _ _).map _⟩
  | det =>
    refine ⟨_, rfl, ?_⟩
    split
    next he => exact (staysInside_keyOperand _ _).error he
    next => exact (staysInside_determinant _ _).map _
  | detinv =>
    refine ⟨_, rfl, ?_⟩
    split
    next he => exact (staysInside_keyOperand _ _).error he
    next => exact (staysInside_inverseOfDeterminant _ _).map _
  | inv =>
    refine ⟨_, rfl, ?_⟩
    split
    next he => exact (staysInside_keyOperand _ _).error he
    next => exact (staysInside_inverseKey _ _).map _
  | l2d => exact ⟨_, rfl, (staysInside_letterToDigit _ _).map _⟩
  | d2l => exact ⟨_, rfl, (staysInside_digitToLetter _ _).map _⟩
  | ldblk => exact ⟨_, rfl, (staysInside_loadBlock s _ h).map _⟩
  | stblk => exact ⟨_, rfl, staysInside_storeBlock s _ _ h⟩

/-- Settles O35: what a command ends with is a value or a fault of MAU, and either gives a next state. -/
theorem everyCommandEndsInANextState : Obligations.EveryCommandEndsInANextState := by
  intro i s h
  obtain ⟨r, hr, hinside⟩ := exec_eq_complete_staysInside i s h
  rw [hr]
  rcases r with (c | f) | u
  · exact ⟨_, complete_raise i s c⟩
  · exact absurd rfl (hinside f)
  · exact ⟨_, complete_ok i s u⟩

end Sys2Proof.Machine
end

section
/-! PROOFS. Runs of commands (60_exceptions.md R219): each word that is issued retires or faults the unit, and a
faulted unit discards the rest. -/

namespace Sys2Proof.Machine

theorem perform_commandAction (w : Word) (s : State) : perform (commandAction w) s = issue w s := rfl

/-- A run that begins with a command: it performs the command and goes on from its next state. -/
theorem performAll_commandActions_cons (w : Word) (ws : List Word) (s t : State)
    (h : performAll (commandActions (w :: ws)) s = .next t) :
    ∃ u, issue w s = .next u ∧ performAll (commandActions ws) u = .next t := by
  simp only [commandActions, List.map_cons, performAll, perform_commandAction] at h
  split at h
  · exact ⟨_, ‹_›, h⟩
  · cases h
  · cases h

/-- A faulted unit discards a whole run of commands (R204). -/
theorem performAll_commandActions_of_faulted (ws : List Word) (s : State) (hf : s.faulted = true) :
    performAll (commandActions ws) s = .next s := by
  induction ws with
  | nil => rfl
  | cons w ws ih =>
    simp only [commandActions, List.map_cons, performAll, perform_commandAction, issue_of_faulted w s hf]
    exact ih

/-- A word issued while FAULT = 0 either retires, which leaves FAULT, or faults the unit. -/
theorem issue_retires_or_faults (w : Word) (s t : State) (hf : s.faulted = false) (h : issue w s = .next t) :
    (t.cix = s.cix + 1 ∧ t.faulted = false) ∨ t.faulted = true := by
  rcases issue_of_not_faulted w s hf with ⟨i, -, hi⟩ | ⟨e, -, he⟩
  · rw [hi] at h
    rcases commandsRetireOrFaultPrecisely i s t h with ⟨hcix, hstatus, -⟩ | ⟨c, hfaults⟩
    · exact .inl ⟨hcix, by rw [State.faulted, hstatus]; exact hf⟩
    · exact .inr hfaults.fault_set
  · rw [he] at h
    cases h
    exact .inr (faulted_enterFault s w .illegalCommand)

/-- Settles O48, by induction on the words: a run that ended well has no faulting word, because the unit would have stayed
faulted. -/
theorem wellEndedRunCountsItsCommands : Obligations.WellEndedRunCountsItsCommands := by
  intro ws
  induction ws with
  | nil =>
    intro s t _ h _
    cases h
    simp
  | cons w ws ih =>
    intro s t hf h hend
    obtain ⟨u, hu, hrest⟩ := performAll_commandActions_cons w ws s t h
    rcases issue_retires_or_faults w s u hf hu with ⟨hcix, hfu⟩ | hfu
    · rw [ih u t hfu hrest hend, hcix, List.length_cons, BitVec.ofNat_add]
      ac_rfl
    · rw [performAll_commandActions_of_faulted ws u hfu] at hrest
      cases hrest
      exact absurd (hend.symm.trans hfu) Bool.false_ne_true

end Sys2Proof.Machine
end

section
/-! PROOFS. The layout of the two variants of a matrix (10_state.md R26, R28 to R30). -/

namespace Sys2Proof.Machine

theorem matrixEntry_key_eq_none (k : KeyMatrix) (r c : Nat) (h : 2 ≤ r ∨ 2 ≤ c) :
    matrixEntry (.key k) r c = none := by
  match r, c with
  | 0, 0 | 0, 1 | 1, 0 | 1, 1 => omega
  | 0, c + 2 | 1, c + 2 | r + 2, c => rfl

theorem matrixEntry_vec_eq_none (es : List Word) (r c : Nat) (h : 1 ≤ r ∨ es.length ≤ c) :
    matrixEntry (.vec es) r c = none := by
  rw [matrixEntry_vec]
  split
  · exact List.getElem?_eq_none (by omega)
  · rfl

/-- Settles O52. -/
theorem entriesFollowTheLayout : Obligations.EntriesFollowTheLayout := by
  constructor
  · intro k
    exact ⟨rfl, rfl, rfl, rfl, matrixEntry_key_eq_none k, rfl, rfl⟩
  · intro es
    exact ⟨fun c h => List.getElem?_eq_getElem h, matrixEntry_vec_eq_none es, rfl, rfl⟩

end Sys2Proof.Machine
end

section
/-! PROOFS. Which accesses of the host window are undefined, and what an access does once its target is known (20_memory.md
R69, R70). -/

namespace Sys2Proof.Machine

/-! ## The target of an access -/

theorem exactLocation_word (o : Nat) (h : o % 4 = 0) : exactLocation .word o = wordLocation o := if_pos h

theorem exactLocation_byte (o : Nat) : exactLocation .byte o = byteLocation o := rfl

theorem exactLocation_half (o : Nat) : exactLocation .half o = none := rfl

theorem accessTarget_of_exactLocation {width : BusWidth} {offset : BitVec 17} {l : Location}
    (h : exactLocation width offset.toNat = some l) : accessTarget width offset = .location l := by
  simp only [accessTarget, h]

/-- An access is of unassigned offsets only if each of its bytes lies in the window and off the table (R70). -/
theorem allUnassigned_iff (width : BusWidth) (o : Nat) :
    allUnassigned width o = true ↔ ∀ i < busBytesOf width, o + i < 0x20000 ∧ ¬ AssignedOffset (o + i) := by
  simp [allUnassigned, locationOfByte_eq_none]

theorem accessTarget_unassigned {width : BusWidth} {offset : BitVec 17}
    (hexact : exactLocation width offset.toNat = none)
    (hbytes : ∀ i < busBytesOf width, offset.toNat + i < 0x20000 ∧ ¬ AssignedOffset (offset.toNat + i)) :
    accessTarget width offset = .unassigned := by
  have hall := (allUnassigned_iff width offset.toNat).2 hbytes
  simp only [accessTarget, hexact, hall, if_true]

/-- An access that touches an assigned byte and is not exactly of one location is not defined (U6). -/
theorem accessTarget_undefined {width : BusWidth} {offset : BitVec 17}
    (hexact : exactLocation width offset.toNat = none) (hassigned : AssignedOffset offset.toNat) :
    accessTarget width offset = .undefinedAccess := by
  have hall : ¬ allUnassigned width offset.toNat = true := by
    intro h
    have hfirst := (allUnassigned_iff width offset.toNat).1 h 0 (by cases width <;> decide)
    exact hfirst.2 hassigned
  simp only [accessTarget, hexact, if_neg hall]

/-! ## What an access does, by its target -/

section
variable {width : BusWidth} {offset : BitVec 17} (v : Word) (s : State)

theorem windowRead_of_location {l : Location} (h : accessTarget width offset = .location l) :
    windowRead s width offset = some (readLocation s l) := by
  simp only [windowRead, h]

theorem windowRead_of_unassigned (h : accessTarget width offset = .unassigned) :
    windowRead s width offset = some 0 := by
  simp only [windowRead, h]

theorem perform_read_of_undefined (h : accessTarget width offset = .undefinedAccess) :
    perform (.read width offset) s = .refused .windowAccess := by
  simp only [perform, (windowRead_eq_none s width offset).2 h]

theorem perform_write_of_text {a : Nat} (h : accessTarget width offset = .location (.text a)) :
    perform (.write width offset v) s = .next (setByte s a (v.setWidth 8)) := by
  simp only [perform, windowWrite, h]

/-- A location other than CMD, CTRL and text memory is read-only: it ignores a write (R70). -/
theorem perform_write_of_readOnly {l : Location} (h : accessTarget width offset = .location l)
    (hcmd : l ≠ .cmd) (hctrl : l ≠ .ctrl) (htext : ∀ a, l ≠ .text a) :
    perform (.write width offset v) s = .next s := by
  cases l with
  | cmd => exact absurd rfl hcmd
  | ctrl => exact absurd rfl hctrl
  | text a => exact absurd rfl (htext a)
  | control | scalar | element | length | field => simp only [perform, windowWrite, h]

theorem perform_write_of_unassigned (h : accessTarget width offset = .unassigned) :
    perform (.write width offset v) s = .next s := by
  simp only [perform, windowWrite, h]

theorem perform_write_of_undefined (h : accessTarget width offset = .undefinedAccess) :
    perform (.write width offset v) s = .refused .windowAccess := by
  simp only [perform, windowWrite, h]

/-- All that a window read does: it changes nothing but what the host has read, or it is refused (R73). -/
theorem perform_read_cases (width : BusWidth) (offset : BitVec 17) :
    (∃ w, windowRead s width offset = some w ∧
        perform (.read width offset) s = .next { s with readData := some w }) ∨
      (accessTarget width offset = .undefinedAccess ∧
        perform (.read width offset) s = .refused .windowAccess) := by
  cases hread : windowRead s width offset with
  | some w => exact .inl ⟨w, rfl, by simp only [perform, hread]⟩
  | none =>
    have hundef := (windowRead_eq_none s width offset).1 hread
    exact .inr ⟨hundef, perform_read_of_undefined s hundef⟩

end

end Sys2Proof.Machine
end

section
/-! PROOFS. Text memory (20_memory.md R61 to R63, R74, R76): read after write, the canonical form, and the same bytes through
the window. -/

namespace Sys2Proof.Machine

/-- Settles O53. -/
theorem textMemoryReadsTheLatestWrite : Obligations.TextMemoryReadsTheLatestWrite := by
  intro s a w
  rw [memWrite_eq, memRead_eq]
  constructor
  · intro ha
    refine ⟨setByte s a w, if_pos ha, ?_, fun b hb => byteAt_setByte_of_ne s a b w hb, memWf_memSet s.tmem a w ha⟩
    rw [memRead_eq, if_pos ha, byteAt_setByte_self]
  · intro ha
    have hout : ¬ a < 4096 := by omega
    exact ⟨if_neg hout, if_neg hout⟩

/-- No written byte stands before the first entry of a canonical memory. -/
theorem memGet_cons_of_lt {a b : Nat} {w : Byte} {rest : Memory} (hwf : memWf ((b, w) :: rest) = true) (h : a < b) :
    memGet ((b, w) :: rest) a = none := by
  obtain ⟨-, hall, -⟩ := (memWf_cons b w rest).1 hwf
  refine memGet_none_of_lt _ a fun c hc => ?_
  rcases List.mem_cons.1 hc with rfl | hc
  · exact h
  · exact h.trans (hall c hc)

theorem memGet_cons_self (a : Nat) (w : Byte) (rest : Memory) : memGet ((a, w) :: rest) a = some w := if_pos rfl

theorem memGet_cons_of_ne {a b : Nat} (w : Byte) (rest : Memory) (h : b ≠ a) :
    memGet ((b, w) :: rest) a = memGet rest a := if_neg h

/-- The first entry is the least written address and its byte, so equal written bytes give equal first entries. -/
theorem head_eq_of_memGet_eq {a b : Nat} {u w : Byte} {m n : Memory} (hm : memWf ((a, u) :: m) = true)
    (hn : memWf ((b, w) :: n) = true) (h : ∀ c, memGet ((a, u) :: m) c = memGet ((b, w) :: n) c) :
    a = b ∧ u = w := by
  have ha := h a
  have hb := h b
  rw [memGet_cons_self] at ha hb
  rcases Nat.lt_trichotomy a b with hlt | rfl | hlt
  · rw [memGet_cons_of_lt hn hlt] at ha
    cases ha
  · rw [memGet_cons_self] at ha
    exact ⟨rfl, Option.some.inj ha⟩
  · rw [memGet_cons_of_lt hm hlt] at hb
    cases hb

/-- The rest of a canonical memory is what it holds at the addresses after its first entry, so it is determined too. -/
theorem tail_memGet_eq {a : Nat} {u : Byte} {m n : Memory} (hm : memWf ((a, u) :: m) = true)
    (hn : memWf ((a, u) :: n) = true) (h : ∀ c, memGet ((a, u) :: m) c = memGet ((a, u) :: n) c) (c : Nat) :
    memGet m c = memGet n c := by
  by_cases hc : a = c
  · subst hc
    obtain ⟨-, hallm, -⟩ := (memWf_cons a u m).1 hm
    obtain ⟨-, halln, -⟩ := (memWf_cons a u n).1 hn
    rw [memGet_none_of_lt m a hallm, memGet_none_of_lt n a halln]
  · simpa only [memGet_cons_of_ne u _ hc] using h c

/-- Settles O54, by induction on the first list: both begin with the least written address. -/
theorem canonicalMemoriesWithEqualBytesAreEqual : Obligations.CanonicalMemoriesWithEqualBytesAreEqual := by
  intro m
  induction m with
  | nil =>
    intro n _ _ h
    cases n with
    | nil => rfl
    | cons c n => exact absurd ((h c.1).trans (memGet_cons_self c.1 c.2 n)) nofun
  | cons c m ih =>
    intro n hm hn h
    cases n with
    | nil => exact absurd ((h c.1).symm.trans (memGet_cons_self c.1 c.2 m)) nofun
    | cons d n =>
      obtain ⟨a, u⟩ := c
      obtain ⟨b, w⟩ := d
      obtain ⟨rfl, rfl⟩ := head_eq_of_memGet_eq hm hn h
      obtain ⟨-, -, hmrest⟩ := (memWf_cons a u m).1 hm
      obtain ⟨-, -, hnrest⟩ := (memWf_cons a u n).1 hn
      rw [ih n hmrest hnrest (tail_memGet_eq hm hn h)]

/-- The byte access of text memory at an address (R69, R74). -/
theorem accessTarget_byte_text (a : Nat) (h : a < 4096) :
    accessTarget .byte (BitVec.ofNat 17 (0x10000 + a)) = .location (.text a) := by
  have hoffset : (BitVec.ofNat 17 (0x10000 + a)).toNat = 0x10000 + a := by
    rw [BitVec.toNat_ofNat]
    omega
  apply accessTarget_of_exactLocation
  rw [hoffset, exactLocation_byte, byteLocation_eq, if_pos (by omega), Nat.add_sub_cancel_left]

/-- Settles O58. -/
theorem windowReadsAndWritesText : Obligations.WindowReadsAndWritesText := by
  intro s a v ha
  have htarget := accessTarget_byte_text a ha
  refine ⟨windowRead_of_location s htarget, setByte s a (v.setWidth 8), perform_write_of_text v s htarget,
    byteAt_setByte_self s a _, fun b hb => byteAt_setByte_of_ne s a b _ hb, ?_⟩
  exact ⟨fun _ => rfl, fun _ => rfl, fun _ => rfl, ⟨rfl, rfl, rfl, rfl, rfl, rfl, rfl, rfl, rfl⟩, rfl⟩

end Sys2Proof.Machine
end

section
/-! PROOFS. The register locations of the host window (20_memory.md R69, R70, R73): what they read as, that they ignore
writes, what an unassigned offset does, and which accesses are refused. -/

namespace Sys2Proof.Machine

/-! ## Reads of the register locations -/

/-- An aligned word read of a word location returns what the location holds (R70, R73). -/
theorem windowRead_word (s : State) {o : Nat} {l : Location} (hl : wordLocation o = some l) (h4 : o % 4 = 0)
    (h : o < 0x20000) : windowRead s .word (BitVec.ofNat 17 o) = some (readLocation s l) := by
  have hoffset : (BitVec.ofNat 17 o).toNat = o := Nat.mod_eq_of_lt h
  apply windowRead_of_location
  apply accessTarget_of_exactLocation
  rw [hoffset, exactLocation_word o h4, hl]

/-- The scalar registers begin at 0x80, four bytes each (R69). -/
theorem wordLocation_scalar : ∀ r : XReg, wordLocation (0x00080 + 4 * r.val) = some (.scalar r) := by decide

/-- The vector registers begin at 0x100, 0x40 bytes each, with the elements first (R69). -/
theorem wordLocation_element :
    ∀ (j : VReg) (e : Fin 8), wordLocation (0x00100 + 0x40 * j.val + 4 * e.val) = some (.element j e.val) := by decide

/-- The length of a vector register follows its elements (R69). -/
theorem wordLocation_length : ∀ j : VReg, wordLocation (0x00120 + 0x40 * j.val) = some (.length j) := by decide

/-- The key registers begin at 0x200, 0x10 bytes each, one word per field (R69). -/
theorem wordLocation_field :
    ∀ (j : KReg) (f : Fin 4), wordLocation (0x00200 + 4 * f.val + 0x10 * j.val) = some (.field j f.val) := by decide

/-- The control registers begin at 0x40 in the order of their numbers (R32, R69). -/
theorem windowRead_control (s : State) (n : Fin 7) :
    windowRead s .word (BitVec.ofNat 17 (0x00040 + 4 * n.val)) = some ((controlRead s n.val).getD 0) := by
  have hloc : ∀ n : Fin 7, wordLocation (0x00040 + 4 * n.val) = some (.control n.val) := by decide
  exact windowRead_word s (hloc n) (by omega) (by omega)

theorem windowRead_field (s : State) (j : KReg) (f : Fin 4) :
    windowRead s .word (BitVec.ofNat 17 (0x00200 + 4 * f.val + 0x10 * j.val)) =
      some ((matrixEntry (.key (s.getK j)) (f.val / 2) (f.val % 2)).getD 0) :=
  windowRead_word s (wordLocation_field j f) (by omega) (by omega)

/-- An element beyond the length of its vector reads 0 (R69). -/
theorem windowRead_element (s : State) (j : VReg) (e : Fin 8) :
    windowRead s .word (BitVec.ofNat 17 (0x00100 + 0x40 * j.val + 4 * e.val)) =
      some (if h : e.val < (s.getV j).length then (s.getV j)[e.val] else 0) := by
  rw [windowRead_word s (wordLocation_element j e) (by omega) (by omega), readLocation]
  split
  next h => rw [List.getElem?_eq_getElem h, Option.getD_some]
  next h => rw [List.getElem?_eq_none (Nat.le_of_not_lt h), Option.getD_none]

/-- Settles O55, by the location that begins at each offset of the table. -/
theorem windowReadsTheRegisters : Obligations.WindowReadsTheRegisters := by
  intro s
  have hstatus : windowRead s .word 0x00048 = some (if s.faulted then 1 else 0) := by
    rw [← statusWord_eq]
    exact windowRead_control s 2
  refine ⟨windowRead_control s 0, windowRead_control s 1, hstatus, windowRead_control s 3, windowRead_control s 4,
    windowRead_control s 5, windowRead_control s 6, ?_, windowRead_element s, ?_, ?_⟩
  · intro r
    exact windowRead_word s (wordLocation_scalar r) (by omega) (by omega)
  · intro j
    exact windowRead_word s (wordLocation_length j) (by omega) (by omega)
  · intro j
    exact ⟨windowRead_field s j 0, windowRead_field s j 1, windowRead_field s j 2, windowRead_field s j 3⟩

/-! ## Accesses that leave the registers -/

/-- A read-only location ignores an aligned word write (R70). -/
theorem perform_write_register (offset : BitVec 17) (v : Word) (s : State) (h4 : offset.toNat % 4 = 0)
    (h : RegisterOffset offset.toNat) : perform (.write .word offset v) s = .next s := by
  obtain ⟨l, hl, hcmd, hctrl⟩ := wordLocation_register offset.toNat h4 h
  obtain ⟨-, -, htext⟩ := wordLocation_some offset.toNat l hl
  have htarget : accessTarget .word offset = .location l :=
    accessTarget_of_exactLocation (by rw [exactLocation_word _ h4, hl])
  exact perform_write_of_readOnly v s htarget hcmd hctrl htext

/-- Settles O56: a read is an observation, and only CMD, CTRL and text memory act on a write. -/
theorem windowAccessesLeaveTheRegisters : Obligations.WindowAccessesLeaveTheRegisters := by
  refine ⟨?_, perform_write_register, ?_⟩
  · intro width offset s t h
    rcases perform_read_cases s width offset with ⟨w, hw, hnext⟩ | ⟨-, hrefused⟩
    · cases hnext.symm.trans h
      exact ⟨hw, rfl⟩
    · cases hrefused.symm.trans h
  · intro width offset v s t h8 hout h
    rcases windowWrite_cases width offset v s with
      ⟨-, rfl, -⟩ | ⟨-, rfl, -⟩ | ⟨a, ha, -, hoffset, -⟩ | hsame | ⟨-, hrefused⟩
    · exact absurd h8 (by decide)
    · exact absurd h8 (by decide)
    · omega
    · cases hsame.symm.trans h
      rfl
    · cases hrefused.symm.trans h

/-! ## Unassigned offsets -/

theorem accessTarget_byte_unassigned (offset : BitVec 17) (h : ¬ AssignedOffset offset.toNat) :
    accessTarget .byte offset = .unassigned := by
  have hlt := offset.isLt
  apply accessTarget_unassigned
  · have hout : ¬ (0x10000 ≤ offset.toNat ∧ offset.toNat < 0x11000) := fun htext => h (.inr (.inr htext))
    rw [exactLocation_byte, byteLocation_eq, if_neg hout]
  · intro i hi
    obtain rfl : i = 0 := by simpa [busBytesOf] using hi
    exact ⟨hlt, h⟩

/-- The window's size is a multiple of 4, so an aligned word lies in it whole. -/
theorem accessTarget_word_unassigned (offset : BitVec 17) (h4 : offset.toNat % 4 = 0)
    (h : ∀ i < 4, ¬ AssignedOffset (offset.toNat + i)) : accessTarget .word offset = .unassigned := by
  have hlt := offset.isLt
  apply accessTarget_unassigned
  · rw [exactLocation_word _ h4, wordLocation_eq_none _ h4]
    exact fun hword => h 0 (by omega) (hword.imp_right .inl)
  · intro i hi
    have hi4 : i < 4 := hi
    exact ⟨by omega, h i hi4⟩

/-- Settles O57. -/
theorem unassignedOffsetsReadZero : Obligations.UnassignedOffsetsReadZero := by
  intro s
  refine ⟨windowRead_word s (o := 0) (l := .cmd) rfl rfl (by omega),
    windowRead_word s (o := 4) (l := .ctrl) rfl rfl (by omega), ?_, ?_⟩
  · intro offset v h
    have htarget := accessTarget_byte_unassigned offset h
    exact ⟨windowRead_of_unassigned s htarget, perform_write_of_unassigned v s htarget⟩
  · intro offset v h4 h
    have htarget := accessTarget_word_unassigned offset h4 h
    exact ⟨windowRead_of_unassigned s htarget, perform_write_of_unassigned v s htarget⟩

/-! ## Undefined accesses -/

theorem exactLocation_byte_eq_none {o : Nat} (h : o < 0x10000) : exactLocation .byte o = none := by
  rw [exactLocation_byte, byteLocation_eq, if_neg (by omega)]

theorem exactLocation_word_eq_none_of_misaligned {o : Nat} (h : o % 4 ≠ 0) : exactLocation .word o = none := if_neg h

/-- The word locations end before text memory (R69). -/
theorem exactLocation_word_eq_none_of_text {o : Nat} (h : 0x10000 ≤ o) : exactLocation .word o = none := by
  by_cases h4 : o % 4 = 0
  · rw [exactLocation_word o h4, wordLocation_eq_none o h4, RegisterOffset]
    omega
  · exact exactLocation_word_eq_none_of_misaligned h4

/-- An access at an assigned offset that is no location's own access is refused, read or write (R70, U6). -/
theorem perform_refused {width : BusWidth} {offset : BitVec 17} (v : Word) (s : State)
    (hassigned : AssignedOffset offset.toNat) (hexact : exactLocation width offset.toNat = none) :
    perform (.read width offset) s = .refused .windowAccess ∧
      perform (.write width offset v) s = .refused .windowAccess := by
  have htarget := accessTarget_undefined hexact hassigned
  exact ⟨perform_read_of_undefined s htarget, perform_write_of_undefined v s htarget⟩

/-- Settles O59: none of these widths and alignments is that of a location. -/
theorem undefinedWindowAccessesAreRefused : Obligations.UndefinedWindowAccessesAreRefused := by
  intro s offset v hassigned
  have hrefused := fun width => perform_refused (width := width) v s hassigned
  exact
    ⟨fun hregister => hrefused .byte (exactLocation_byte_eq_none hregister),
      fun _ hmisaligned => hrefused .word (exactLocation_word_eq_none_of_misaligned hmisaligned),
      fun htext => hrefused .word (exactLocation_word_eq_none_of_text htext),
      hrefused .half (exactLocation_half _)⟩

end Sys2Proof.Machine
end

section
/-! PROOFS. A step is the host's next action (20_memory.md R71, R75), and in a legal state the one thing that can stop it is
a window access the spec does not define (R70, U6). -/

namespace Sys2Proof.Machine

theorem step_of_input_nil (s : State) (h : s.input = []) : step s = .next s := by
  simp only [step, nextAction, h]

theorem step_of_input_cons (s : State) (a : HostAction) (rest : List HostAction) (h : s.input = a :: rest) :
    step s = perform a { s with input := rest } := by
  simp only [step, nextAction, h]

/-- Settles O44. -/
theorem stepPerformsTheNextAction : Obligations.StepPerformsTheNextAction :=
  fun s => ⟨step_of_input_cons s, step_of_input_nil s⟩

theorem issue_of_decode (w : Word) (i : Instr) (s : State) (hf : s.faulted = false) (hd : decode w = .ok i) :
    issue w s = exec i s := by
  rcases issue_of_not_faulted w s hf with ⟨i', hd', hexec⟩ | ⟨e, hd', -⟩
  · obtain rfl := Except.ok.inj (hd'.symm.trans hd)
    exact hexec
  · cases hd'.symm.trans hd

/-- Settles O43. -/
theorem stepRunsTheDecodedCommand : Obligations.StepRunsTheDecodedCommand := by
  intro w i rest s hinput hf hd
  calc step s = perform (commandAction w) { s with input := rest } := step_of_input_cons s _ rest hinput
    _ = issue w { s with input := rest } := perform_commandAction w _
    _ = exec i { s with input := rest } := issue_of_decode w i _ hf hd

/-- With a legal TLEN every word that is issued gives a next state: discarded, executed or an illegal command. -/
theorem issue_next (w : Word) (s : State) (h : s.tlenOk) : ∃ t, issue w s = .next t := by
  cases hf : s.faulted with
  | true => exact ⟨s, issue_of_faulted w s hf⟩
  | false =>
    rcases issue_of_not_faulted w s hf with ⟨i, -, hexec⟩ | ⟨e, -, hillegal⟩
    · rw [hexec]
      exact everyCommandEndsInANextState i s h
    · exact ⟨_, hillegal⟩

/-- With a legal TLEN an action of the host gives a next state, or it is an undefined window access and is refused. -/
theorem perform_next_or_refused (action : HostAction) (s : State) (h : s.tlenOk) :
    (∃ t, perform action s = .next t) ∨
      (perform action s = .refused .windowAccess ∧ ∃ width offset, accessTarget width offset = .undefinedAccess ∧
        (action = .read width offset ∨ ∃ v, action = .write width offset v)) := by
  cases action with
  | hardReset => exact .inl ⟨hardReset s, rfl⟩
  | read width offset =>
    rcases perform_read_cases s width offset with ⟨w, -, hnext⟩ | ⟨htarget, hrefused⟩
    · exact .inl ⟨_, hnext⟩
    · exact .inr ⟨hrefused, width, offset, htarget, .inl rfl⟩
  | write width offset v =>
    rcases windowWrite_cases width offset v s with
      ⟨-, -, hissue⟩ | ⟨-, -, hctrl⟩ | ⟨a, -, -, -, htext⟩ | hsame | ⟨htarget, hrefused⟩
    · obtain ⟨t, ht⟩ := issue_next v s h
      exact .inl ⟨t, hissue.trans ht⟩
    · exact .inl ⟨_, hctrl⟩
    · exact .inl ⟨_, htext⟩
    · exact .inl ⟨s, hsame⟩
    · exact .inr ⟨hrefused, width, offset, htarget, .inr ⟨v, rfl⟩⟩

/-- Settles O47. -/
theorem legalStatesStepOrRefuseAnUndefinedAccess : Obligations.LegalStatesStepOrRefuseAnUndefinedAccess := by
  intro s hlegal
  cases hinput : s.input with
  | nil => exact .inl ⟨s, step_of_input_nil s hinput⟩
  | cons action rest =>
    rw [step_of_input_cons s action rest hinput]
    rcases perform_next_or_refused action { s with input := rest } hlegal.tlen_ok with
      hnext | ⟨hrefused, width, offset, htarget, haction⟩
    · exact .inl hnext
    · refine .inr ⟨hrefused, rest, width, offset, htarget, ?_⟩
      rcases haction with rfl | ⟨v, rfl⟩
      · exact .inl rfl
      · exact .inr ⟨v, rfl⟩

end Sys2Proof.Machine
end

section
/-! PROOFS. Decoder and encoder are inverse (30_encoding.md R91 to R100): a row of the map reads from a word the fields
that the encoder puts there, and the fields it does not read are zero. -/

namespace Sys2Proof

/-- Settles O30: each field of the word is the one it was built from, and the three rows with a limit on the immediate
accept it because the command is well formed. -/
theorem decodeOfEncode : Obligations.DecodeOfEncode := by
  intro i hwf
  cases i with
  | crr xd cr => simp [decode, encode, whenZero, whenWellFormed, hwf]
  | crw cr xs => simp [decode, encode, whenZero, whenWellFormed, hwf]
  | vnew vd n => simp [decode, encode, whenZero, whenWellFormed, hwf]
  | mul vd ma mb => simp [decode, encode, whenZero, whenReg, zeroIndexR]
  | inv kd ma => simp [decode, encode, whenZero, whenReg, zeroIndexR]
  | ldblk vd addr => simp [decode, encode, whenZero, whenReg]
  | stblk va addr => simp [decode, encode, whenZero, whenReg]
  | li xd imm | lih xd imm => simp [decode, encode, whenZero]
  | nop | norm xd xs | red ma | get xd ma row col | set ma row col xs | width xd ma | height xd ma | det xd ma
  | detinv xd ma | l2d xd xs | d2l xd xs => simp [decode, encode, whenZero, zeroIndexR]

/-! ## A word is built from its fields -/

section
variable {w : Word} {op : Nat} {rd ra rb : BitVec 3} {row col : BitVec 4} {imm : BitVec 16}

theorem formatR_eq_of_fields (hop : (fieldOp w).toNat = op) (hrd : fieldRd w = rd) (hra : fieldRa w = ra)
    (hrb : fieldRb w = rb) (hzero : fieldZeroR w = 0) (hrow : fieldRow w = row) (hcol : fieldCol w = col) :
    formatR (.ofNat 8 op) rd ra rb row col = w := by
  subst hop hrd hra hrb hrow hcol
  rw [BitVec.ofNat_toNat, BitVec.setWidth_eq]
  exact formatR_fields w hzero

theorem formatI_eq_of_fields (hop : (fieldOp w).toNat = op) (hrd : fieldRd w = rd) (hra : fieldRa w = ra)
    (hzero : fieldZeroI w = 0) (himm : fieldImm w = imm) : formatI (.ofNat 8 op) rd ra imm = w := by
  subst hop hrd hra himm
  rw [BitVec.ofNat_toNat, BitVec.setWidth_eq]
  exact formatI_fields w hzero

end

/-- The field of a matrix operand is the field that names the matrix it reads as (R93). -/
theorem eq_mregField (f : BitVec 3) : f = mregField (mregOf f) := (mregField_mregOf f).symm

/-- Settles O31: in each row the fields that are read and the fields that must be zero make up the whole word. The cases
are the rows in the order of R96. -/
theorem encodeOfDecode : Obligations.EncodeOfDecode := by
  intro w i h
  unfold decode at h
  split at h
  all_goals
    simp only [whenZero_eq_ok, whenReg_eq_ok, whenWellFormed_eq_ok, zeroIndexR_eq, Bool.and_eq_true, beq_iff_eq,
      Except.ok.injEq, reduceCtorEq] at h
  -- NOP
  case h_1 hop =>
    obtain ⟨⟨⟨⟨hrd, hra⟩, hrb⟩, hzero, hrow, hcol⟩, rfl⟩ := h
    exact ⟨formatR_eq_of_fields hop hrd hra hrb hzero hrow hcol, rfl⟩
  -- LI, LIH
  case h_2 hop | h_3 hop =>
    obtain ⟨⟨hra, hzero⟩, rfl⟩ := h
    exact ⟨formatI_eq_of_fields hop rfl hra hzero rfl, rfl⟩
  -- CRR
  case h_4 hop =>
    obtain ⟨⟨⟨hra, hzero⟩, hhigh⟩, hwf, rfl⟩ := h
    exact ⟨formatI_eq_of_fields hop rfl hra hzero (setWidth_fieldCol w hhigh).symm, hwf⟩
  -- CRW
  case h_5 hop =>
    obtain ⟨⟨⟨hrd, hzero⟩, hhigh⟩, hwf, rfl⟩ := h
    exact ⟨formatI_eq_of_fields hop hrd rfl hzero (setWidth_fieldCol w hhigh).symm, hwf⟩
  -- NORM, L2D, D2L
  case h_6 hop | h_17 hop | h_18 hop =>
    obtain ⟨⟨hrb, hzero, hrow, hcol⟩, rfl⟩ := h
    exact ⟨formatR_eq_of_fields hop rfl rfl hrb hzero hrow hcol, rfl⟩
  -- MUL
  case h_7 hop =>
    obtain ⟨⟨hzero, hrow, hcol⟩, vd, hvd, rfl⟩ := h
    have hrd := (vregField_of_vregOf _ vd hvd).symm
    exact ⟨formatR_eq_of_fields hop hrd (eq_mregField _) (eq_mregField _) hzero hrow hcol, rfl⟩
  -- RED
  case h_8 hop =>
    obtain ⟨⟨⟨hrd, hrb⟩, hzero, hrow, hcol⟩, rfl⟩ := h
    exact ⟨formatR_eq_of_fields hop hrd (eq_mregField _) hrb hzero hrow hcol, rfl⟩
  -- GET
  case h_9 hop =>
    obtain ⟨⟨hrb, hzero⟩, rfl⟩ := h
    exact ⟨formatR_eq_of_fields hop rfl (eq_mregField _) hrb hzero rfl rfl, rfl⟩
  -- SET
  case h_10 hop =>
    obtain ⟨⟨hrd, hzero⟩, rfl⟩ := h
    exact ⟨formatR_eq_of_fields hop hrd (eq_mregField _) rfl hzero rfl rfl, rfl⟩
  -- WIDTH, HEIGHT, DET, DETINV
  case h_11 hop | h_12 hop | h_14 hop | h_15 hop =>
    obtain ⟨⟨hrb, hzero, hrow, hcol⟩, rfl⟩ := h
    exact ⟨formatR_eq_of_fields hop rfl (eq_mregField _) hrb hzero hrow hcol, rfl⟩
  -- VNEW
  case h_13 hop =>
    obtain ⟨⟨⟨hra, hzero⟩, hhigh⟩, h⟩ := h
    split at h
    · next vd hvd =>
      obtain ⟨hwf, rfl⟩ := (whenWellFormed_eq_ok _ _).1 h
      have hrd := (vregField_of_vregOf _ vd hvd).symm
      exact ⟨formatI_eq_of_fields hop hrd hra hzero (setWidth_fieldCol w hhigh).symm, hwf⟩
    · cases h
  -- INV
  case h_16 hop =>
    obtain ⟨⟨hrb, hzero, hrow, hcol⟩, kd, hkd, rfl⟩ := h
    have hrd := (kregField_of_kregOf _ kd hkd).symm
    exact ⟨formatR_eq_of_fields hop hrd (eq_mregField _) hrb hzero hrow hcol, rfl⟩
  -- LDBLK
  case h_19 hop =>
    obtain ⟨⟨hra, hzero⟩, vd, hvd, rfl⟩ := h
    exact ⟨formatI_eq_of_fields hop (vregField_of_vregOf _ vd hvd).symm hra hzero rfl, rfl⟩
  -- STBLK
  case h_20 hop =>
    obtain ⟨⟨hrd, hzero⟩, va, hva, rfl⟩ := h
    exact ⟨formatI_eq_of_fields hop hrd (vregField_of_vregOf _ va hva).symm hzero rfl, rfl⟩

end Sys2Proof
end

section
/-! PROOFS. The decoder and the table of masks accept the same words (30_encoding.md R96 to R101): the opcode singles
out one row, and under it mask, match and limit test the same fields as the decoder. -/

namespace Sys2Proof.Machine

/-! ## Masking, one field after the other -/

section
variable (w m p : Word)

theorem eq_iff_fieldsR :
    w = p ↔ fieldOp w = fieldOp p ∧ fieldRd w = fieldRd p ∧ fieldRa w = fieldRa p ∧ fieldRb w = fieldRb p ∧
      fieldZeroR w = fieldZeroR p ∧ fieldRow w = fieldRow p ∧ fieldCol w = fieldCol p := by
  refine ⟨by rintro rfl; simp, fun ⟨hop, hrd, hra, hrb, hzero, hrow, hcol⟩ => ?_⟩
  have happend (w : Word) :
      fieldOp w ++ fieldRd w ++ fieldRa w ++ fieldRb w ++ fieldZeroR w ++ fieldRow w ++ fieldCol w = w := by
    unfold fieldOp fieldRd fieldRa fieldRb fieldZeroR fieldRow fieldCol
    ext i hi
    simp
    grind
  rw [← happend w, ← happend p, hop, hrd, hra, hrb, hzero, hrow, hcol]

theorem eq_iff_fieldsI :
    w = p ↔ fieldOp w = fieldOp p ∧ fieldRd w = fieldRd p ∧ fieldRa w = fieldRa p ∧ fieldZeroI w = fieldZeroI p ∧
      fieldImmHigh w = fieldImmHigh p ∧ fieldCol w = fieldCol p := by
  refine ⟨by rintro rfl; simp, fun ⟨hop, hrd, hra, hzero, hhigh, hcol⟩ => ?_⟩
  have happend (w : Word) :
      fieldOp w ++ fieldRd w ++ fieldRa w ++ fieldZeroI w ++ fieldImmHigh w ++ fieldCol w = w := by
    unfold fieldOp fieldRd fieldRa fieldZeroI fieldImmHigh fieldCol
    ext i hi
    simp
    grind
  rw [← happend w, ← happend p, hop, hrd, hra, hzero, hhigh, hcol]

theorem fieldOp_and : fieldOp (w &&& m) = fieldOp w &&& fieldOp m := BitVec.extractLsb'_and
theorem fieldRd_and : fieldRd (w &&& m) = fieldRd w &&& fieldRd m := BitVec.extractLsb'_and
theorem fieldRa_and : fieldRa (w &&& m) = fieldRa w &&& fieldRa m := BitVec.extractLsb'_and
theorem fieldRb_and : fieldRb (w &&& m) = fieldRb w &&& fieldRb m := BitVec.extractLsb'_and
theorem fieldZeroR_and : fieldZeroR (w &&& m) = fieldZeroR w &&& fieldZeroR m := BitVec.extractLsb'_and
theorem fieldRow_and : fieldRow (w &&& m) = fieldRow w &&& fieldRow m := BitVec.extractLsb'_and
theorem fieldCol_and : fieldCol (w &&& m) = fieldCol w &&& fieldCol m := BitVec.extractLsb'_and
theorem fieldZeroI_and : fieldZeroI (w &&& m) = fieldZeroI w &&& fieldZeroI m := BitVec.extractLsb'_and
theorem fieldImmHigh_and : fieldImmHigh (w &&& m) = fieldImmHigh w &&& fieldImmHigh m := BitVec.extractLsb'_and

theorem and_eq_iff_fieldsR :
    w &&& m = p ↔ fieldOp w &&& fieldOp m = fieldOp p ∧ fieldRd w &&& fieldRd m = fieldRd p ∧
      fieldRa w &&& fieldRa m = fieldRa p ∧ fieldRb w &&& fieldRb m = fieldRb p ∧
      fieldZeroR w &&& fieldZeroR m = fieldZeroR p ∧ fieldRow w &&& fieldRow m = fieldRow p ∧
      fieldCol w &&& fieldCol m = fieldCol p := by
  rw [eq_iff_fieldsR, fieldOp_and, fieldRd_and, fieldRa_and, fieldRb_and, fieldZeroR_and, fieldRow_and, fieldCol_and]

theorem and_eq_iff_fieldsI :
    w &&& m = p ↔ fieldOp w &&& fieldOp m = fieldOp p ∧ fieldRd w &&& fieldRd m = fieldRd p ∧
      fieldRa w &&& fieldRa m = fieldRa p ∧ fieldZeroI w &&& fieldZeroI m = fieldZeroI p ∧
      fieldImmHigh w &&& fieldImmHigh m = fieldImmHigh p ∧ fieldCol w &&& fieldCol m = fieldCol p := by
  rw [eq_iff_fieldsI, fieldOp_and, fieldRd_and, fieldRa_and, fieldZeroI_and, fieldImmHigh_and, fieldCol_and]

end

/-- A field that the mask covers whole is kept; the premise lets `simp` use it where the mask is a numeral. -/
theorem and_of_eq_allOnes {n : Nat} (f m : BitVec n) (h : m = BitVec.allOnes n) : f &&& m = f := by
  rw [h, BitVec.and_allOnes]

/-! ## The row of an opcode -/

/-- The row of R96 with this opcode, if the map assigns it (R98). -/
def rowOfOpcode (op : Nat) : Option OpcodeRow := opcodeMap.find? fun r => (fieldOp r.pattern).toNat == op

theorem rowOfOpcode_of_mem : ∀ r ∈ opcodeMap, rowOfOpcode (fieldOp r.pattern).toNat = some r := by decide

/-- The column "op" of R96. -/
theorem map_opcode_opcodeMap : (opcodeMap.map fun r => (fieldOp r.pattern).toNat) =
    [0x00, 0x01, 0x02, 0x04, 0x05, 0x10, 0x20, 0x21, 0x22, 0x23, 0x24, 0x25, 0x26, 0x30, 0x31, 0x32, 0x40, 0x41, 0x42,
      0x43] := by
  decide

theorem rowOfOpcode_eq_none {op : Nat} (h : op ∉ opcodeMap.map fun r => (fieldOp r.pattern).toNat) :
    rowOfOpcode op = none :=
  List.find?_eq_none.2 fun r hr hop => h (List.mem_map.2 ⟨r, hr, beq_iff_eq.1 hop⟩)

theorem fieldOp_mask : ∀ r ∈ opcodeMap, fieldOp r.mask = BitVec.allOnes 8 := by decide

theorem fieldOp_of_selects (w : Word) (r : OpcodeRow) (hr : r ∈ opcodeMap) (h : selects w r = true) :
    fieldOp w = fieldOp r.pattern := by
  simp only [selects, Bool.and_eq_true, beq_iff_eq] at h
  rw [← h.1, fieldOp_and, fieldOp_mask r hr, BitVec.and_allOnes]

theorem exists_selects_iff (w : Word) :
    (∃ r ∈ opcodeMap, selects w r = true) ↔ ∃ r, rowOfOpcode (fieldOp w).toNat = some r ∧ selects w r = true := by
  constructor
  · rintro ⟨r, hr, hsel⟩
    rw [fieldOp_of_selects w r hr hsel]
    exact ⟨r, rowOfOpcode_of_mem r hr, hsel⟩
  · rintro ⟨r, hrow, hsel⟩
    exact ⟨r, List.mem_of_find?_eq_some hrow, hsel⟩

section
variable {w : Word} {op : Nat} {r : OpcodeRow} (hop : (fieldOp w).toNat = op) (hrow : rowOfOpcode op = some r)
include hop hrow

theorem exists_selects_iff_selects : (∃ r ∈ opcodeMap, selects w r = true) ↔ selects w r = true := by
  simp [exists_selects_iff, hop, hrow]

theorem fieldOp_and_mask : fieldOp w &&& fieldOp r.mask = fieldOp r.pattern := by
  have hpattern : (fieldOp r.pattern).toNat = op := by simpa using List.find?_some hrow
  rw [fieldOp_mask r (List.mem_of_find?_eq_some hrow), BitVec.and_allOnes]
  exact BitVec.eq_of_toNat_eq (hop.trans hpattern.symm)

theorem exists_selects_iff_fieldsR (hlimit : r.limit = none) :
    (∃ r ∈ opcodeMap, selects w r = true) ↔ fieldRd w &&& fieldRd r.mask = fieldRd r.pattern ∧
      fieldRa w &&& fieldRa r.mask = fieldRa r.pattern ∧ fieldRb w &&& fieldRb r.mask = fieldRb r.pattern ∧
      fieldZeroR w &&& fieldZeroR r.mask = fieldZeroR r.pattern ∧
      fieldRow w &&& fieldRow r.mask = fieldRow r.pattern ∧ fieldCol w &&& fieldCol r.mask = fieldCol r.pattern := by
  rw [exists_selects_iff_selects hop hrow]
  simp [selects, hlimit, and_eq_iff_fieldsR, fieldOp_and_mask hop hrow]

theorem exists_selects_iff_fieldsI (hlimit : r.limit = none) :
    (∃ r ∈ opcodeMap, selects w r = true) ↔ fieldRd w &&& fieldRd r.mask = fieldRd r.pattern ∧
      fieldRa w &&& fieldRa r.mask = fieldRa r.pattern ∧ fieldZeroI w &&& fieldZeroI r.mask = fieldZeroI r.pattern ∧
      fieldImmHigh w &&& fieldImmHigh r.mask = fieldImmHigh r.pattern ∧
      fieldCol w &&& fieldCol r.mask = fieldCol r.pattern := by
  rw [exists_selects_iff_selects hop hrow]
  simp [selects, hlimit, and_eq_iff_fieldsI, fieldOp_and_mask hop hrow]

/-- A row with a limit has a mask that makes bits 15:4 of the immediate zero, so the limit is one on its low four bits
(R94). -/
theorem exists_selects_iff_fieldsI_of_limit {n : Nat} (hlimit : r.limit = some n)
    (hmask : fieldImmHigh r.mask = BitVec.allOnes 12) (hpattern : fieldImmHigh r.pattern = 0) :
    (∃ r ∈ opcodeMap, selects w r = true) ↔ fieldRd w &&& fieldRd r.mask = fieldRd r.pattern ∧
      fieldRa w &&& fieldRa r.mask = fieldRa r.pattern ∧ fieldZeroI w &&& fieldZeroI r.mask = fieldZeroI r.pattern ∧
      fieldImmHigh w = 0 ∧ fieldCol w &&& fieldCol r.mask = fieldCol r.pattern ∧ (fieldCol w).toNat ≤ n := by
  have himm (hhigh : fieldImmHigh w = 0) : (w.extractLsb' 0 16).toNat = (fieldCol w).toNat := by
    calc (fieldImm w).toNat = ((fieldCol w).setWidth 16).toNat := by rw [setWidth_fieldCol w hhigh]
      _ = (fieldCol w).toNat := BitVec.toNat_setWidth_of_le (by decide)
  rw [exists_selects_iff_selects hop hrow]
  simp only [selects, hlimit, and_eq_iff_fieldsI, fieldOp_and_mask hop hrow, hmask, hpattern, BitVec.and_allOnes,
    Bool.and_eq_true, beq_iff_eq, decide_eq_true_eq, true_and, and_assoc]
  refine and_congr_right fun _ => and_congr_right fun _ => and_congr_right fun _ => and_congr_right fun hhigh => ?_
  rw [himm hhigh]

end

/-! ## When the tests of the decoder accept -/

theorem exists_whenZero_ok (z : Bool) (r : Except DecodeError Instr) :
    (∃ i, whenZero z r = .ok i) ↔ z = true ∧ ∃ i, r = .ok i := by
  simp [whenZero_eq_ok]

theorem exists_whenWellFormed_ok (j : Instr) : (∃ i, whenWellFormed j = .ok i) ↔ j.wellFormed = true := by
  simp [whenWellFormed_eq_ok]

theorem exists_whenReg_ok {α : Type} (r : Option α) (f : α → Instr) :
    (∃ i, whenReg r f = .ok i) ↔ r.isSome = true := by
  simp [whenReg_eq_ok, Option.isSome_iff_exists]

/-- R100: the high bit of a vector-only field is zero. -/
theorem vregOf_isSome_iff (f : BitVec 3) : (vregOf f).isSome = true ↔ f &&& 4 = 0 := by revert f; decide
/-- R100: the high bit of a key-only field is one. -/
theorem kregOf_isSome_iff (f : BitVec 3) : (kregOf f).isSome = true ↔ f &&& 4 = 4 := by revert f; decide

/-- Settles O32. The cases are the rows in the order of R96, grouped by the fields they test; the last is an opcode
that the map does not assign. -/
theorem wordsDecodeExactlyWhenTheySelectARow : Obligations.WordsDecodeExactlyWhenTheySelectARow := by
  intro w
  unfold decode
  split
  -- NOP, NORM, RED, GET, SET, WIDTH, HEIGHT, DET, DETINV, L2D, D2L
  case h_1 hop | h_6 hop | h_8 hop | h_9 hop | h_10 hop | h_11 hop | h_12 hop | h_14 hop | h_15 hop | h_17 hop
      | h_18 hop =>
    rw [exists_whenZero_ok, exists_selects_iff_fieldsR hop rfl rfl]
    simp [zeroIndexR, and_of_eq_allOnes, fieldRd, fieldRa, fieldRb, fieldZeroR, fieldRow, fieldCol, and_assoc]
  -- MUL, INV
  case h_7 hop | h_16 hop =>
    rw [exists_whenZero_ok, exists_whenReg_ok, exists_selects_iff_fieldsR hop rfl rfl, and_comm]
    simp [zeroIndexR, vregOf_isSome_iff, kregOf_isSome_iff, and_of_eq_allOnes, fieldRd, fieldRa, fieldRb, fieldZeroR,
      fieldRow, fieldCol, and_assoc]
  -- LI, LIH
  case h_2 hop | h_3 hop =>
    rw [exists_whenZero_ok, exists_selects_iff_fieldsI hop rfl rfl]
    simp [and_of_eq_allOnes, fieldRd, fieldRa, fieldZeroI, fieldImmHigh, fieldCol]
  -- LDBLK, STBLK
  case h_19 hop | h_20 hop =>
    rw [exists_whenZero_ok, exists_whenReg_ok, exists_selects_iff_fieldsI hop rfl rfl]
    simp [vregOf_isSome_iff, and_of_eq_allOnes, fieldRd, fieldRa, fieldZeroI, fieldImmHigh, fieldCol, and_assoc,
      and_left_comm, and_comm]
  -- CRR, CRW
  case h_4 hop | h_5 hop =>
    rw [exists_whenZero_ok, exists_whenWellFormed_ok, exists_selects_iff_fieldsI_of_limit hop rfl rfl rfl rfl]
    simp [wellFormed_crr, wellFormed_crw, and_of_eq_allOnes, fieldRd, fieldRa, fieldZeroI, fieldCol, and_assoc]
  -- VNEW
  case h_13 hop =>
    rw [exists_whenZero_ok, exists_selects_iff_fieldsI_of_limit hop rfl rfl rfl rfl]
    have hvec := vregOf_isSome_iff (fieldRd w)
    cases hvd : vregOf (fieldRd w) with
    | none => simp_all [fieldRd]
    | some vd =>
      simp_all [exists_whenWellFormed_ok, wellFormed_vnew, and_of_eq_allOnes, fieldRd, fieldRa, fieldZeroI, fieldCol,
        and_assoc]
  -- no row
  case h_21 =>
    have hunassigned : (fieldOp w).toNat ∉ opcodeMap.map fun r => (fieldOp r.pattern).toNat := by
      rw [map_opcode_opcodeMap]
      simp_all
    simp [exists_selects_iff, rowOfOpcode_eq_none hunassigned]

end Sys2Proof.Machine
end

section
/-! PROOFS. What follows at the command level: LI32 as its two commands (30_encoding.md R104), and a word that is no
command at the CMD port (R97, R203, R224). -/

namespace Sys2Proof.Machine

/-- LIH puts the high half of a word on top of the low half that LI has loaded (R186, R187). -/
theorem highHalf_sext32 (v : Word) : highHalf (v.extractLsb' 16 16) (sext32 (v.extractLsb' 0 16)) = v := by
  unfold highHalf sext32
  ext i hi
  simp
  grind

theorem SameControl.trans {s t u : State} (hst : SameControl s t) (htu : SameControl t u) : SameControl s u where
  mod_eq := htu.mod_eq.trans hst.mod_eq
  tlen_eq := htu.tlen_eq.trans hst.tlen_eq
  status_eq := htu.status_eq.trans hst.status_eq
  cause_eq := htu.cause_eq.trans hst.cause_eq
  fcix_eq := htu.fcix_eq.trans hst.fcix_eq
  fcmd_eq := htu.fcmd_eq.trans hst.fcmd_eq
  powerOns_eq := htu.powerOns_eq.trans hst.powerOns_eq
  input_eq := htu.input_eq.trans hst.input_eq
  readData_eq := htu.readData_eq.trans hst.readData_eq

/-- Settles O29: LIH keeps the low half that LI has written, and both write `xd` alone. -/
theorem liThenLihLoadAnyValue : Obligations.LiThenLihLoadAnyValue := by
  intro xd v s
  have hli := writesX_setX s xd (sext32 (v.extractLsb' 0 16))
  generalize hs1 : retire (s.setX xd (sext32 (v.extractLsb' 0 16))) = s1 at hli
  have hlih := writesX_setX s1 xd (highHalf (v.extractLsb' 16 16) (s1.getX xd))
  refine ⟨_, _, s1, _, rfl, congrArg _ hs1, rfl, ?_, fun r hr => (hlih.others r hr).trans (hli.others r hr),
    fun j => (hlih.sameV j).trans (hli.sameV j), fun j => (hlih.sameK j).trans (hli.sameK j),
    fun a => (hlih.sameText a).trans (hli.sameText a), hli.control.trans hlih.control, ?_⟩
  · rw [hlih.result, hli.result, highHalf_sext32]
  · rw [hlih.cix_eq, hli.cix_eq, BitVec.add_assoc]
    rfl

/-- Settles O37: of the two things that issuing a word can do, execution needs a word that decodes. -/
theorem illegalWordsEnterIllegalCommand : Obligations.IllegalWordsEnterIllegalCommand := by
  intro w e s hf hd
  rw [perform_commandAction]
  rcases issue_of_not_faulted w s hf with ⟨i, hd', -⟩ | ⟨-, -, hillegal⟩
  · cases hd.symm.trans hd'
  · exact ⟨_, hillegal, faults_enterFault s .illegalCommand w⟩

end Sys2Proof.Machine
end

section
/-! PROOFS. Modular integers (40_modular_integer_ops.md R120, R121, R123): NORM and the formula of `norm`. -/

namespace Sys2Proof.Machine

theorem exec_norm (xd xs : XReg) (s : State) :
    exec (.norm xd xs) s = .next (retire (s.setX xd (normWord s (s.getX xs)))) := rfl

/-- Settles O6. -/
theorem normWritesCanonicalResidue : Obligations.NormWritesCanonicalResidue := by
  rintro xd xs s ⟨hlo, hhi⟩
  exact ⟨rfl, _, _, exec_norm xd xs s, writesX_setX s xd _, isResidue_toWord_normMod _ _ hlo hhi⟩

/-- The document's formula: whichever remainder `w` of `v` the inner operator gives, adding the modulus and reducing again
gives `norm` (R120, R123). -/
theorem normMod_eq_remainder_add_emod {v w : Int} {m : Nat} (h : (m : Int) ∣ v - w) : normMod v m = (w + m) % m := by
  have hd : (m : Int) ∣ v - (w + m) := by
    rw [← sub_sub]
    exact dvd_sub h (dvd_refl _)
  exact normMod_congr v (w + m) m hd

/-- Settles O20: each listed value is the residue by uniqueness. -/
theorem normIsTheUniqueResidue : Obligations.NormIsTheUniqueResidue := by
  intro v m hm
  refine ⟨normMod_nonneg v m hm, normMod_lt v m hm, dvd_sub_normMod v m,
    fun r h0 h1 hd => (normMod_unique v r m h0 h1 hd).symm, normMod_eq_remainder_add_emod Int.dvd_self_sub_emod,
    ?zero, ?canonical, ?modulus, ?minus_one, ?minus_modulus, ?one⟩
  case zero => exact normMod_unique 0 0 m le_rfl (by omega) (by simp)
  case canonical => exact fun h0 h1 => normMod_unique v v m h0 h1 (by simp)
  case modulus => exact normMod_unique m 0 m le_rfl (by omega) (by simp)
  case minus_one => exact normMod_unique (-1) (m - 1) m (by omega) (by omega) ⟨-1, by ring⟩
  case minus_modulus => exact normMod_unique (-m) 0 m le_rfl (by omega) (by simp)
  case one => exact normMod_unique v 0 1 le_rfl (by simp) (by simp)

/-- Settles O21: both inner remainders are congruent to `v`, and as the intermediate is positive, both conventions of the
outer operator agree on it. -/
theorem normFormulaUnderBothConventions : Obligations.NormFormulaUnderBothConventions := by
  intro v m hlo hhi
  have hpos : 0 < (m : Int) := by omega
  have htlo := Int.lt_tmod_of_pos v hpos
  have hthi := Int.tmod_lt_of_pos v hpos
  have helo := Int.emod_nonneg v hpos.ne'
  have hehi := Int.emod_lt_of_pos v hpos
  have hformula : normMod v m = (Int.tmod v m + m) % m := normMod_eq_remainder_add_emod Int.dvd_self_sub_tmod
  have houter : Int.tmod (Int.tmod v m + m) m = (Int.tmod v m + m) % m := Int.tmod_eq_emod_of_nonneg (by omega)
  refine ⟨hformula, hformula.trans houter.symm, normMod_eq_remainder_add_emod Int.dvd_self_sub_emod, ?_⟩
  omega

end Sys2Proof.Machine
end

section
/-! PROOFS. Freedom from overflow (40_modular_integer_ops.md R122 b): every named intermediate of a command is a product of
two canonical numbers, a sum or difference of two such products, or the negation of one, and each of these fits. -/

namespace Sys2Proof.Machine

/-! ## Canonical numbers and the named intermediates -/

/-- `v` is canonical under the modulus `m` (R31). -/
def Canonical (m : Nat) (v : Int) : Prop := 0 ≤ v ∧ v < m

/-- Every entry of a matrix of either variant is canonical. -/
def CanonicalEntries (m : Nat) (a : MatrixValue) : Prop :=
  ∀ (r c : Nat) (w : Word), matrixEntry a r c = some w → Canonical m w.toInt

theorem CanonicalOperands.entries {i : Instr} {s : State} {n : MReg} (h : CanonicalOperands i s)
    (hn : n ∈ matrixOperands i) : CanonicalEntries s.modulus (s.matrix n) := h n hn

/-- The four fields of a key matrix are canonical. -/
structure CanonicalKey (m : Nat) (k : KeyMatrix) : Prop where
  a : Canonical m k.a.toInt
  b : Canonical m k.b.toInt
  c : Canonical m k.c.toInt
  d : Canonical m k.d.toInt

theorem CanonicalEntries.key {m : Nat} {k : KeyMatrix} (h : CanonicalEntries m (.key k)) : CanonicalKey m k :=
  ⟨h 0 0 _ rfl, h 0 1 _ rfl, h 1 0 _ rfl, h 1 1 _ rfl⟩

theorem CanonicalEntries.vec {m : Nat} {es : List Word} (h : CanonicalEntries m (.vec es)) :
    ∀ w ∈ es, Canonical m w.toInt := by
  intro w hw
  obtain ⟨c, hc⟩ := List.mem_iff_getElem?.1 hw
  exact h 0 c w hc

section
variable {m : Nat} (hm : m ≤ 32767)
include hm

/-- Two products of canonical numbers together are less than 2^31. -/
theorem Canonical.mul_bounds {x y : Int} (hx : Canonical m x) (hy : Canonical m y) :
    0 ≤ x * y ∧ x * y ≤ 1073610756 := by
  obtain ⟨hx0, hx1⟩ := hx
  obtain ⟨hy0, hy1⟩ := hy
  constructor
  · exact mul_nonneg hx0 hy0
  · calc x * y ≤ 32766 * 32766 := mul_le_mul (by omega) (by omega) hy0 (by norm_num)
      _ = 1073610756 := by norm_num

theorem Canonical.fits_mul {x y : Int} (hx : Canonical m x) (hy : Canonical m y) : fits32 (x * y) = true := by
  have := hx.mul_bounds hm hy
  rw [fits32_iff]
  omega

theorem Canonical.fits_neg_mul {x y : Int} (hx : Canonical m x) (hy : Canonical m y) : fits32 (-(x * y)) = true := by
  have := hx.mul_bounds hm hy
  rw [fits32_iff]
  omega

theorem Canonical.fits_mul_add_mul {x y z w : Int} (hx : Canonical m x) (hy : Canonical m y) (hz : Canonical m z)
    (hw : Canonical m w) : fits32 (x * y + z * w) = true := by
  have := hx.mul_bounds hm hy
  have := hz.mul_bounds hm hw
  rw [fits32_iff]
  omega

theorem Canonical.fits_mul_sub_mul {x y z w : Int} (hx : Canonical m x) (hy : Canonical m y) (hz : Canonical m z)
    (hw : Canonical m w) : fits32 (x * y - z * w) = true := by
  have := hx.mul_bounds hm hy
  have := hz.mul_bounds hm hw
  rw [fits32_iff]
  omega

theorem CanonicalKey.detFits {k : KeyMatrix} (hk : CanonicalKey m k) : DetFits k :=
  ⟨hk.a.fits_mul hm hk.d, hk.b.fits_mul hm hk.c, hk.a.fits_mul_sub_mul hm hk.d hk.b hk.c⟩

theorem CanonicalKey.adjugateFits {k : KeyMatrix} {di : Int} (hk : CanonicalKey m k) (hdi : Canonical m di) :
    AdjugateFits k di :=
  ⟨hk.d.fits_mul hm hdi, hk.b.fits_mul hm hdi, hk.b.fits_neg_mul hm hdi, hk.c.fits_mul hm hdi,
    hk.c.fits_neg_mul hm hdi, hk.a.fits_mul hm hdi⟩

theorem productFits_vec_of_canonical {u : Word} {ws : List Word} (hu : Canonical m u.toInt)
    (hws : ∀ w ∈ ws, Canonical m w.toInt) : ProductFits (.vec [u]) (.vec ws) :=
  (productFits_vec u ws).2 fun w hw => hu.fits_mul hm (hws w hw)

theorem productFits_key_of_canonical {u v : Word} {k : KeyMatrix} (hu : Canonical m u.toInt) (hv : Canonical m v.toInt)
    (hk : CanonicalKey m k) : ProductFits (.vec [u, v]) (.key k) :=
  (productFits_key u v k).2
    ⟨⟨hu.fits_mul hm hk.a, hv.fits_mul hm hk.c, hu.fits_mul_add_mul hm hk.a hv hk.c⟩,
      hu.fits_mul hm hk.b, hv.fits_mul hm hk.d, hu.fits_mul_add_mul hm hk.b hv hk.d⟩

end

/-! ## Results that are no overflow -/

/-- A value of which `P` holds, or an early end other than an overflow. -/
def OverflowFree {α : Type} (P : α → Prop) : Except Abort α → Prop
  | .ok a => P a
  | .error e => e ≠ .raise .arithOverflow

section
variable {α β : Type} {P : α → Prop} {Q : β → Prop}

theorem overflowFree_ok {a : α} (h : P a) : OverflowFree P (.ok a) := h

theorem overflowFree_error {e : Abort} (h : e ≠ .raise .arithOverflow) : OverflowFree P (.error e) := h

/-- A check: it passes, or it ends the command. -/
theorem overflowFree_ite {p : Prop} [Decidable p] {a : α} {e : Abort} (ha : P a) (he : e ≠ .raise .arithOverflow) :
    OverflowFree P (if p then .ok a else .error e) := by
  split
  · exact overflowFree_ok ha
  · exact overflowFree_error he

theorem OverflowFree.map {r : Except Abort α} (h : OverflowFree P r) {g : α → β} (hg : ∀ a, Q (g a)) :
    OverflowFree Q (r.map g) := by
  cases r with
  | ok a => exact hg a
  | error e => exact h

theorem OverflowFree.value {r : Except Abort α} (h : OverflowFree P r) {a : α} (ha : r = .ok a) : P a := by
  subst ha
  exact h

/-- An error of a part, handed on as the error of the whole. -/
theorem OverflowFree.error {r : Except Abort α} (h : OverflowFree P r) {e : Abort} (he : r = .error e) :
    OverflowFree Q (.error e) := by
  subst he
  exact h

end

/-! ## The parts of the commands that compute -/

theorem overflowFree_multiply {m : Nat} {a b : MatrixValue} (hm : m ≤ 32767) (ha : CanonicalEntries m a)
    (hb : CanonicalEntries m b) : OverflowFree (fun _ => True) (multiply a b) := by
  cases a with
  | key k => exact overflowFree_error nofun
  | vec es =>
    by_cases hdim : es.length = matrixHeight b
    · rcases width_eq_height es b hdim with ⟨u, ws, rfl, rfl⟩ | ⟨u, v, k, rfl, rfl⟩
      · rw [multiply_singleton_vec u ws (productFits_vec_of_canonical hm (ha.vec u (by simp)) hb.vec)]
        exact overflowFree_ok trivial
      · rw [multiply_pair_key u v k
          (productFits_key_of_canonical hm (ha.vec u (by simp)) (ha.vec v (by simp)) hb.key)]
        exact overflowFree_ok trivial
    · rw [multiply_vec, if_neg hdim]
      exact overflowFree_error nofun

section
variable {k : KeyMatrix} {m : Nat}

theorem overflowFree_determinantInverse (dt : Int) (m : Nat) :
    OverflowFree (Canonical m) (determinantInverse dt m) := by
  unfold determinantInverse
  split
  next inv hinv =>
    obtain ⟨-, hlt, -⟩ := scanInverse_some dt m m 0 inv hinv
    exact overflowFree_ok ⟨by omega, by omega⟩
  next => exact overflowFree_error nofun

variable (hm : m ≤ 32767) (hk : CanonicalKey m k)
include hm hk

theorem overflowFree_determinant : OverflowFree (fun _ => True) (determinant k m) := by
  rw [determinant_of_fits k m (hk.detFits hm)]
  exact overflowFree_ok trivial

theorem overflowFree_inverseOfDeterminant : OverflowFree (Canonical m) (inverseOfDeterminant k m) := by
  unfold inverseOfDeterminant
  split
  next he => exact (overflowFree_determinant hm hk).error he
  next => exact overflowFree_determinantInverse _ m

theorem overflowFree_inverseKey : OverflowFree (fun _ => True) (inverseKey k m) := by
  unfold inverseKey
  split
  next he => exact (overflowFree_inverseOfDeterminant hm hk).error he
  next di hdi =>
    rw [scaledAdjugate_of_fits k di m (hk.adjugateFits hm ((overflowFree_inverseOfDeterminant hm hk).value hdi))]
    exact overflowFree_ok trivial

end

/-! ## The parts of the commands that compute nothing -/

theorem overflowFree_letterToDigit (b : Int) (m : Nat) : OverflowFree (fun _ => True) (letterToDigit b m) :=
  overflowFree_ite trivial nofun

theorem overflowFree_digitToLetter (d : Int) (m : Nat) : OverflowFree (fun _ => True) (digitToLetter d m) :=
  overflowFree_ite trivial nofun

theorem overflowFree_memRead (s : State) (a : Nat) : OverflowFree (fun _ => True) (memRead s a) :=
  overflowFree_ite trivial nofun

theorem overflowFree_decodeBlock (b0 b1 : Byte) (m : Nat) : OverflowFree (fun _ => True) (decodeBlock b0 b1 m) := by
  unfold decodeBlock
  split
  next => exact overflowFree_ok trivial
  next he => exact (overflowFree_letterToDigit _ m).error he
  next he _ => exact (overflowFree_letterToDigit _ m).error he

theorem overflowFree_loadBlock (s : State) (a : Nat) : OverflowFree (fun _ => True) (loadBlock s a) := by
  unfold loadBlock
  split
  · exact overflowFree_error nofun
  split
  · exact overflowFree_error nofun
  split
  next => exact overflowFree_decodeBlock _ _ _
  next he => exact (overflowFree_memRead s a).error he
  next he _ => exact (overflowFree_memRead s (a + 1)).error he

theorem overflowFree_encodeBlock (m : Nat) (es : List Word) : OverflowFree (fun _ => True) (encodeBlock m es) := by
  by_cases h : ∀ e ∈ es, DigitValue e.toInt m
  · rw [encodeBlock_of_digits m es h]
    exact overflowFree_ok trivial
  · rw [encodeBlock_of_not_digits m es (by simpa using h)]
    exact overflowFree_error nofun

/-- Its checks fail for the text range or a symbol; its writes can only stop the model, and leave CIX as it is. -/
theorem overflowFree_storeBlock (s : State) (a : Nat) (es : List Word) :
    OverflowFree (fun u => u.cix = s.cix) (storeBlock s a es) := by
  cases hr : storeBlock s a es with
  | ok u =>
    obtain ⟨m, -, rfl⟩ := storeBlock_ok s a es u hr
    exact overflowFree_ok rfl
  | error e =>
    unfold storeBlock at hr
    split at hr
    · cases hr
      exact overflowFree_error nofun
    split at hr
    next he =>
      cases hr
      exact (overflowFree_encodeBlock s.modulus es).error he
    next =>
      obtain rfl := memWriteAll_error _ s a e hr
      exact overflowFree_error nofun

theorem overflowFree_controlWrite (s : State) (n : Nat) (w : Word) :
    OverflowFree (fun u => u.cix = s.cix) (controlWrite s n w) := by
  match n with
  | 0 => exact overflowFree_ite rfl nofun
  | 1 => exact overflowFree_ite rfl nofun
  | n + 2 => exact overflowFree_error nofun

theorem setEntry_cix (s : State) (n : MReg) (r c : Nat) (w : Word) : (s.setEntry n r c w).cix = s.cix := by
  cases n <;> rfl

/-! ## The commands -/

/-- A command ends with a state that has the CIX of `s`, or early for another cause than an overflow. -/
theorem exec_eq_complete_overflowFree (i : Instr) (s : State) (hm : s.modOk) (hc : CanonicalOperands i s) :
    ∃ r, exec i s = complete i s r ∧ OverflowFree (fun u => u.cix = s.cix) r := by
  obtain ⟨-, hhi⟩ := hm
  cases i with
  | nop | li | lih | norm | width | height => exact ⟨.ok _, rfl, overflowFree_ok rfl⟩
  | vnew => exact ⟨_, rfl, overflowFree_ite rfl nofun⟩
  | crr | get =>
    refine ⟨_, rfl, ?_⟩
    split
    · exact overflowFree_ok rfl
    · exact overflowFree_error nofun
  | set =>
    refine ⟨_, rfl, ?_⟩
    split
    · exact overflowFree_ok (setEntry_cix s _ _ _ _)
    · exact overflowFree_error nofun
  | red ma =>
    refine ⟨_, rfl, ?_⟩
    cases ma <;> exact overflowFree_ok rfl
  | crw => exact ⟨_, rfl, overflowFree_controlWrite _ _ _⟩
  | mul vd ma mb =>
    have ha : CanonicalEntries s.modulus (s.matrix ma) := hc.entries (by simp [matrixOperands])
    have hb : CanonicalEntries s.modulus (s.matrix mb) := hc.entries (by simp [matrixOperands])
    exact ⟨_, rfl, (overflowFree_multiply hhi ha hb).map fun _ => rfl⟩
  | det xd ma =>
    refine ⟨_, rfl, ?_⟩
    cases ma with
    | vec j => exact overflowFree_error nofun
    | key j => exact (overflowFree_determinant hhi (hc.entries (List.mem_singleton_self _)).key).map fun _ => rfl
  | detinv xd ma =>
    refine ⟨_, rfl, ?_⟩
    cases ma with
    | vec j => exact overflowFree_error nofun
    | key j => exact (overflowFree_inverseOfDeterminant hhi (hc.entries (List.mem_singleton_self _)).key).map fun _ => rfl
  | inv kd ma =>
    refine ⟨_, rfl, ?_⟩
    cases ma with
    | vec j => exact overflowFree_error nofun
    | key j => exact (overflowFree_inverseKey hhi (hc.entries (List.mem_singleton_self _)).key).map fun _ => rfl
  | l2d => exact ⟨_, rfl, (overflowFree_letterToDigit _ _).map fun _ => rfl⟩
  | d2l => exact ⟨_, rfl, (overflowFree_digitToLetter _ _).map fun _ => rfl⟩
  | ldblk => exact ⟨_, rfl, (overflowFree_loadBlock s _).map fun _ => rfl⟩
  | stblk => exact ⟨_, rfl, overflowFree_storeBlock s _ _⟩

theorem causeCode_eq_arithOverflow_iff (c : Cause) : causeCode c = causeCode .arithOverflow ↔ c = .arithOverflow := by
  cases c <;> decide

/-- Settles O23: fault entry for an overflow keeps CIX and records the overflow's code; a command that retires advances CIX, and
one that faults records another code (`exec_eq_complete_overflowFree`). -/
theorem canonicalEntriesNeverOverflow : Obligations.CanonicalEntriesNeverOverflow := by
  intro i s hm hc t ht hfault
  obtain ⟨r, hr, hfree⟩ := exec_eq_complete_overflowFree i s hm hc
  rw [hr] at ht
  rcases (complete_next i s t r).1 ht with ⟨u, rfl, rfl⟩ | ⟨c, rfl, rfl⟩
  · have hcix : u.cix = s.cix := hfree
    have hadvance : u.cix + 1 = s.cix := hfault.cix_eq
    simp [hcix] at hadvance
  · exact hfree (congrArg Abort.raise ((causeCode_eq_arithOverflow_iff c).1 hfault.cause_eq))

end Sys2Proof.Machine
end

section
/-! PROOFS. Matrix abstraction (41_matrix_abstraction.md R130 to R139): what each of its commands computes, on either
variant of its operands, and the fault of each check that fails. -/

namespace Sys2Proof.Machine

/-- A command whose computation raises a cause enters that fault and nothing else happens (R10, R203). -/
theorem exec_faults {i : Instr} {s : State} {c : Cause} (h : exec i s = complete i s (.error (.raise c))) :
    ∃ t, exec i s = .next t ∧ Faults (encode i) c s t :=
  ⟨_, h, faults_enterFault s c (encode i)⟩

/-! ## MUL (R130, R131) -/

theorem exec_mul (vd : VReg) (ma mb : MReg) (s : State) :
    exec (.mul vd ma mb) s =
      complete (.mul vd ma mb) s ((multiply (s.matrix ma) (s.matrix mb)).map fun es => s.setV vd es) := rfl

section
variable {vd : VReg} {ma mb : MReg} {s : State}

theorem exec_mul_of_error {c : Cause} (h : multiply (s.matrix ma) (s.matrix mb) = .error (.raise c)) :
    ∃ t, exec (.mul vd ma mb) s = .next t ∧ Faults (encode (.mul vd ma mb)) c s t :=
  exec_faults (by rw [exec_mul, h]; rfl)

theorem exec_mul_of_ok {es : List Word} (h : multiply (s.matrix ma) (s.matrix mb) = .ok es) :
    exec (.mul vd ma mb) s = .next (retire (s.setV vd es)) := by
  rw [exec_mul, h]
  rfl

end

/-- The last running sum of a column is its whole sum, so a product that fits has entries that fit. -/
theorem ProductFits.fits_partialSum {a b : MatrixValue} (h : ProductFits a b) (ha : 0 < matrixWidth a) {c : Nat}
    (hc : c < matrixWidth b) : fits32 (partialSum a b c (matrixWidth a)) = true := by
  have hlast := (h c hc (matrixWidth a - 1) (by omega)).2
  rwa [Nat.sub_add_cancel ha] at hlast

theorem partialSum_singleton (u : Word) (b : MatrixValue) (c : Nat) :
    partialSum (.vec [u]) b c 1 = u.toInt * entryInt b 0 c := by
  simp [partialSum, entryInt, matrixEntry]

theorem partialSum_pair (u v : Word) (b : MatrixValue) (c : Nat) :
    partialSum (.vec [u, v]) b c 2 = u.toInt * entryInt b 0 c + v.toInt * entryInt b 1 c := by
  simp [partialSum, entryInt, matrixEntry, Finset.sum_range_succ]

theorem entryInt_vec (ws : List Word) (c : Nat) (hc : c < ws.length) : entryInt (.vec ws) 0 c = ws[c].toInt := by
  simp [entryInt, matrixEntry, hc]

/-- A product that fits is stored, entry by entry, as the sums over the shared dimension (R131 i, ii). -/
theorem multiply_entries (row : List Word) (b : MatrixValue) (hdim : row.length = matrixHeight b)
    (hfits : ProductFits (.vec row) b) :
    ∃ es, multiply (.vec row) b = .ok es ∧
      ∀ (c : Nat) (h : c < es.length), es[c] = toWord (partialSum (.vec row) b c row.length) := by
  rcases width_eq_height row b hdim with ⟨u, ws, rfl, rfl⟩ | ⟨u, v, k, rfl, rfl⟩
  · refine ⟨_, multiply_singleton_vec u ws hfits, fun c hc => ?_⟩
    rw [List.length_map] at hc
    rw [List.getElem_map, List.length_singleton, partialSum_singleton, entryInt_vec ws c hc]
  · refine ⟨_, multiply_pair_key u v k hfits, fun c hc => ?_⟩
    rw [show [u, v].length = 2 from rfl, partialSum_pair]
    match c, hc with
    | 0, _ | 1, _ => rfl

theorem matrixHeight_pos (b : MatrixValue) : 0 < matrixHeight b := by
  cases b with
  | vec _ => exact Nat.one_pos
  | key _ => exact Nat.two_pos

/-- The entries of a product that fits are the exact sums (R130). -/
theorem multiply_exact (row : List Word) (b : MatrixValue) (hdim : row.length = matrixHeight b)
    (hfits : ProductFits (.vec row) b) :
    ∃ es, multiply (.vec row) b = .ok es ∧ es.length = matrixWidth b ∧
      ∀ (c : Nat) (h : c < es.length), es[c].toInt = partialSum (.vec row) b c row.length := by
  obtain ⟨es, hes, hentry⟩ := multiply_entries row b hdim hfits
  have hlen := multiply_length _ _ _ hes
  refine ⟨es, hes, hlen, fun c hc => ?_⟩
  have hpos : 0 < row.length := hdim ▸ matrixHeight_pos b
  rw [hentry c hc]
  exact toInt_toWord _ (hfits.fits_partialSum hpos (hlen ▸ hc))

/-- Settles O7: the checks of `multiply` in their order, then the exact sums. -/
theorem mulComputesExactProductOrFaults : Obligations.MulComputesExactProductOrFaults := by
  intro vd ma mb s
  refine ⟨rfl, ?key_self, ?dimensions, ?overflow, ?product⟩
  case key_self =>
    rintro j rfl
    exact exec_mul_of_error (multiply_key _ _)
  case dimensions =>
    rintro j rfl hdim
    exact exec_mul_of_error ((multiply_vec _ _).trans (if_neg hdim))
  case overflow =>
    rintro j rfl hdim hfits
    exact exec_mul_of_error (multiply_overflow _ _ hdim hfits)
  case product =>
    rintro j rfl hdim hfits
    obtain ⟨es, hes, hlen, hentry⟩ := multiply_exact (s.getV j) (s.matrix mb) hdim hfits
    exact ⟨_, es, exec_mul_of_ok hes, writesV_setV s vd es, hlen, hentry⟩

/-! ## RED (R132) -/

theorem exec_red_vec (j : VReg) (s : State) :
    exec (.red (.vec j)) s = .next (retire (s.setV j ((s.getV j).map (normWord s)))) := rfl

theorem exec_red_key (j : KReg) (s : State) :
    exec (.red (.key j)) s = .next (retire (s.setK j (normKey s (s.getK j)))) := rfl

@[simp] theorem matrix_setV_self (s : State) (j : VReg) (es : List Word) : (s.setV j es).matrix (.vec j) = .vec es := by
  simp [matrix_setV]

@[simp] theorem matrix_setK_self (s : State) (j : KReg) (k : KeyMatrix) : (s.setK j k).matrix (.key j) = .key k := by
  simp [matrix_setK]

theorem matrixEntry_map_vec (f : Word → Word) (es : List Word) (r c : Nat) :
    matrixEntry (.vec (es.map f)) r c = (matrixEntry (.vec es) r c).map f := by
  cases r with
  | zero => exact List.getElem?_map
  | succ r => rfl

theorem matrixEntry_normKey (s : State) (k : KeyMatrix) (r c : Nat) :
    matrixEntry (.key (normKey s k)) r c = (matrixEntry (.key k) r c).map (normWord s) := by
  match r, c with
  | 0, 0 | 0, 1 | 1, 0 | 1, 1 => rfl
  | 0, c + 2 | 1, c + 2 | r + 2, c => rfl

/-- RED keeps the shape and applies `norm` to each entry, of either variant. -/
theorem exec_red (ma : MReg) (s : State) :
    ∃ t, exec (.red ma) s = .next t ∧ WritesMatrix s t ma ∧ matrixWidth (t.matrix ma) = matrixWidth (s.matrix ma) ∧
      ∀ r c : Nat, matrixEntry (t.matrix ma) r c = (matrixEntry (s.matrix ma) r c).map (normWord s) := by
  cases ma with
  | vec j =>
    refine ⟨_, exec_red_vec j s, writesMatrix_setV s j _, ?_, fun r c => ?_⟩
    · rw [matrix_retire, matrix_setV_self]
      exact List.length_map _
    · rw [matrix_retire, matrix_setV_self]
      exact matrixEntry_map_vec _ _ r c
  | key j =>
    refine ⟨_, exec_red_key j s, writesMatrix_setK s j _, ?_, fun r c => ?_⟩
    · rw [matrix_retire, matrix_setK_self]
      rfl
    · rw [matrix_retire, matrix_setK_self]
      exact matrixEntry_normKey s _ r c

/-- Settles O8: each entry is normalised, and the stored `norm` is the canonical residue. -/
theorem redNormalisesEveryEntryInPlace : Obligations.RedNormalisesEveryEntryInPlace := by
  rintro ma s ⟨hlo, hhi⟩
  obtain ⟨t, hexec, hwrites, hwidth, hentry⟩ := exec_red ma s
  refine ⟨rfl, t, hexec, hwrites, hwidth, fun r c w hw => ⟨normWord s w, ?_, isResidue_toWord_normMod _ _ hlo hhi⟩⟩
  rw [hentry, hw, Option.map_some]

/-! ## Valid indices (R138, R139) -/

theorem validIndex_iff (s : State) (n : MReg) (r c : Nat) :
    ValidIndex s n r c ↔ ∃ w, matrixEntry (s.matrix n) r c = some w := by
  rw [← matrixEntry_isSome, Option.isSome_iff_exists]

theorem not_validIndex_iff (s : State) (n : MReg) (r c : Nat) :
    ¬ ValidIndex s n r c ↔ matrixEntry (s.matrix n) r c = none := by
  rw [← matrixEntry_isSome, Option.not_isSome_iff_eq_none]

/-! ## GET (R133) -/

theorem exec_get_of_some {xd : XReg} {ma : MReg} {row col : Field4} {s : State} {w : Word}
    (h : matrixEntry (s.matrix ma) row.toNat col.toNat = some w) :
    exec (.get xd ma row col) s = .next (retire (s.setX xd w)) := by
  simp only [exec, execGet, h, complete_ok]

theorem exec_get_of_none {xd : XReg} {ma : MReg} {row col : Field4} {s : State}
    (h : matrixEntry (s.matrix ma) row.toNat col.toNat = none) :
    exec (.get xd ma row col) s = complete (.get xd ma row col) s (.error (.raise .invalidIndex)) := by
  simp only [exec, execGet, h]

/-- Settles O9: an index is valid exactly where there is an entry to read. -/
theorem getReadsValidEntryOrFaults : Obligations.GetReadsValidEntryOrFaults := by
  intro xd ma row col s
  refine ⟨rfl, fun hvalid => ?_, fun hinvalid => ?_⟩
  · obtain ⟨w, hw⟩ := (validIndex_iff s ma _ _).1 hvalid
    exact ⟨_, w, exec_get_of_some hw, writesX_setX s xd w, hw⟩
  · exact exec_faults (exec_get_of_none ((not_validIndex_iff s ma _ _).1 hinvalid))

/-! ## SET (R134) -/

theorem exec_set_of_valid {ma : MReg} {row col : Field4} {xs : XReg} {s : State}
    (h : ValidIndex s ma row.toNat col.toNat) :
    exec (.set ma row col xs) s = .next (retire (s.setEntry ma row.toNat col.toNat (s.getX xs))) := by
  obtain ⟨w, hw⟩ := (validIndex_iff s ma _ _).1 h
  simp only [exec, execSet, hw, complete_ok]

theorem exec_set_of_not_valid {ma : MReg} {row col : Field4} {xs : XReg} {s : State}
    (h : ¬ ValidIndex s ma row.toNat col.toNat) :
    exec (.set ma row col xs) s = complete (.set ma row col xs) s (.error (.raise .invalidIndex)) := by
  simp only [exec, execSet, (not_validIndex_iff s ma _ _).1 h]

theorem writesMatrix_setEntry (s : State) (n : MReg) (r c : Nat) (w : Word) :
    WritesMatrix s (retire (s.setEntry n r c w)) n := by
  cases n with
  | vec j => exact writesMatrix_setV s j _
  | key j => exact writesMatrix_setK s j _

theorem matrixWidth_setEntry (s : State) (n : MReg) (r c : Nat) (w : Word) :
    matrixWidth ((s.setEntry n r c w).matrix n) = matrixWidth (s.matrix n) := by
  cases n with
  | vec j =>
    rw [State.setEntry, matrix_setV_self]
    exact List.length_set
  | key j =>
    rw [State.setEntry, matrix_setK_self]
    rfl

theorem matrixEntry_set_vec (es : List Word) (c : Nat) (w : Word) (hc : c < es.length) (r' c' : Nat) :
    matrixEntry (.vec (es.set c w)) r' c' = if r' = 0 ∧ c' = c then some w else matrixEntry (.vec es) r' c' := by
  cases r' with
  | zero => simp [matrixEntry, List.getElem?_set, hc, eq_comm]
  | succ r' => simp [matrixEntry]

theorem matrixEntry_setField (k : KeyMatrix) (r c : Nat) (w : Word) (hr : r ≤ 1) (hc : c ≤ 1) (r' c' : Nat) :
    matrixEntry (.key (setField k r c w)) r' c' =
      if r' = r ∧ c' = c then some w else matrixEntry (.key k) r' c' := by
  by_cases hvalid : r' ≤ 1 ∧ c' ≤ 1
  · obtain ⟨hr', hc'⟩ := hvalid
    -- each of the four fields, read after a write to each of the four
    interval_cases r <;> interval_cases c <;> interval_cases r' <;> interval_cases c' <;> rfl
  · rw [if_neg (by omega), matrixEntry_key_eq_none _ _ _ (by omega), matrixEntry_key_eq_none _ _ _ (by omega)]

/-- Read after a store at a valid index: the value stored there, elsewhere the old entry (R134). -/
theorem matrixEntry_setEntry {s : State} {n : MReg} {r c : Nat} (w : Word) (h : ValidIndex s n r c) (r' c' : Nat) :
    matrixEntry ((s.setEntry n r c w).matrix n) r' c' =
      if r' = r ∧ c' = c then some w else matrixEntry (s.matrix n) r' c' := by
  cases n with
  | vec j =>
    obtain ⟨rfl, hc⟩ := h
    rw [State.setEntry, matrix_setV_self]
    exact matrixEntry_set_vec _ c w hc r' c'
  | key j =>
    obtain ⟨hr, hc⟩ := h
    rw [State.setEntry, matrix_setK_self]
    exact matrixEntry_setField _ r c w hr hc r' c'

/-- Settles O10, by the entries read after the store (`matrixEntry_setEntry`). -/
theorem setStoresValidEntryOrFaults : Obligations.SetStoresValidEntryOrFaults := by
  intro ma row col xs s
  refine ⟨rfl, fun hvalid => ?_, fun hinvalid => exec_faults (exec_set_of_not_valid hinvalid)⟩
  have hentry := matrixEntry_setEntry (s.getX xs) hvalid
  refine ⟨_, exec_set_of_valid hvalid, writesMatrix_setEntry s ma _ _ _, ?width, ?stored, fun r c hne => ?others⟩
  case width => rw [matrix_retire, matrixWidth_setEntry]
  case stored => rw [matrix_retire, hentry, if_pos ⟨rfl, rfl⟩]
  case others => rw [matrix_retire, hentry, if_neg (by omega)]

/-! ## WIDTH and HEIGHT (R135, R136) -/

theorem exec_width (xd : XReg) (ma : MReg) (s : State) :
    exec (.width xd ma) s = .next (retire (s.setX xd (BitVec.ofNat 32 (matrixWidth (s.matrix ma))))) := rfl

theorem exec_height (xd : XReg) (ma : MReg) (s : State) :
    exec (.height xd ma) s = .next (retire (s.setX xd (BitVec.ofNat 32 (matrixHeight (s.matrix ma))))) := rfl

/-- Settles O11: a length within R24's bound is stored as itself, the other three results are constants of the variant. -/
theorem widthAndHeightReportTheShape : Obligations.WidthAndHeightReportTheShape := by
  intro xd s hlengths
  refine ⟨fun ma => ⟨rfl, rfl⟩, fun j => ?width_vec, fun j => ?width_key, fun j => ?height_vec, fun j => ?height_key⟩
  case width_vec =>
    have hlength : (s.getV j).length ≤ 8 := hlengths j
    have hword := toInt_ofNat_small (s.getV j).length (by omega)
    exact ⟨_, _, exec_width xd (.vec j) s, writesX_setX s xd _, hword⟩
  case width_key => exact ⟨_, exec_width xd (.key j) s, writesX_setX s xd 2⟩
  case height_vec => exact ⟨_, exec_height xd (.vec j) s, writesX_setX s xd 1⟩
  case height_key => exact ⟨_, exec_height xd (.key j) s, writesX_setX s xd 2⟩

/-! ## VNEW (R137) -/

theorem exec_vnew_of_le {vd : VReg} {n : Field4} {s : State} (h : n.toNat ≤ 8) :
    exec (.vnew vd n) s = .next (retire (s.setV vd (List.replicate n.toNat 0))) :=
  congrArg (complete (.vnew vd n) s) (if_pos h)

theorem decode_formatI_vnew (vd : VReg) (imm : Imm16) :
    decode (formatI 0x26 (vregField vd) 0 imm) =
      whenZero (fieldImmHigh (formatI 0x26 (vregField vd) 0 imm) == 0)
        (whenWellFormed (.vnew vd (fieldCol (formatI 0x26 (vregField vd) 0 imm)))) := by
  simp [decode]

/-- A VNEW word that decodes has zero bits above its 4-bit length, and that length is at most 8 (R94, R100). -/
theorem imm_le_of_decode_vnew {vd : VReg} {imm : Imm16} {i : Instr}
    (h : decode (formatI 0x26 (vregField vd) 0 imm) = .ok i) : imm.toNat ≤ 8 := by
  rw [decode_formatI_vnew, whenZero_eq_ok, whenWellFormed_eq_ok, wellFormed_vnew, beq_iff_eq] at h
  obtain ⟨hhigh, hlength, -⟩ := h
  have himm := setWidth_fieldCol _ hhigh
  rw [fieldImm_formatI] at himm
  rw [← himm, BitVec.toNat_setWidth_of_le (by decide)]
  exact hlength

/-- Settles O12. -/
theorem vnewMakesZeroVector : Obligations.VnewMakesZeroVector := by
  intro vd n s
  refine ⟨rfl, fun hn => ?zeros, fun imm himm => ?too_long⟩
  case zeros =>
    exact ⟨_, _, exec_vnew_of_le hn, writesV_setV s vd _, List.length_replicate, fun _ => List.eq_of_mem_replicate⟩
  case too_long =>
    cases hd : decode (formatI 0x26 (vregField vd) 0 imm) with
    | error e => exact ⟨e, rfl⟩
    | ok i =>
      have := imm_le_of_decode_vnew hd
      omega

end Sys2Proof.Machine
end

section
/-! PROOFS. The inverse modulo `m` and the scan that finds it (42_key_matrix.md R152): there is one exactly when the number has
no factor in common with `m`, it is unique, and the scan answers it. -/

namespace Sys2Proof.Machine

/-! ## Inverses in [0, m) -/

/-- `r` is an inverse of `v` modulo `m`, in [0, m) (R152). -/
structure IsInverse (m : Nat) (v r : Int) : Prop where
  nonneg : 0 ≤ r
  lt : r < m
  norm_mul : normMod (v * r) m = 1

section
variable {m : Nat} {v r r' : Int}

theorem IsInverse.dvd (h : IsInverse m v r) : (m : Int) ∣ v * r - 1 := h.norm_mul ▸ dvd_sub_normMod (v * r) m

/-- Modulo 1 everything is 0, and below 1 there is no candidate. -/
theorem IsInverse.two_le (h : IsInverse m v r) : 2 ≤ m := by
  obtain ⟨hnonneg, hlt, hone⟩ := h
  have hbound := normMod_lt (v * r) m (by omega)
  omega

theorem isInverse_of_dvd (hm : 2 ≤ m) (hnonneg : 0 ≤ r) (hlt : r < m) (hd : (m : Int) ∣ v * r - 1) :
    IsInverse m v r :=
  ⟨hnonneg, hlt, normMod_unique _ 1 m (by omega) (by omega) hd⟩

theorem IsInverse.unique (h : IsInverse m v r) (h' : IsInverse m v r') : r = r' := by
  obtain ⟨a, ha⟩ := h.dvd
  obtain ⟨b, hb⟩ := h'.dvd
  have hcongr : (m : Int) ∣ r - r' := ⟨r' * a - r * b, by linear_combination r' * ha - r * hb⟩
  calc r = normMod r m := (normMod_unique r r m h.nonneg h.lt (by simp)).symm
    _ = r' := normMod_unique r r' m h'.nonneg h'.lt hcongr

/-- A number and its residue have the same inverses. -/
theorem isInverse_normMod_iff : IsInverse m (normMod v m) r ↔ IsInverse m v r := by
  have hd : (m : Int) ∣ normMod v m * r - v * r := by
    rw [← sub_mul]
    exact (dvd_sub_comm.1 (dvd_sub_normMod v m)).mul_right r
  have hnorm : normMod (normMod v m * r) m = normMod (v * r) m := normMod_congr _ _ m hd
  exact ⟨fun h => ⟨h.nonneg, h.lt, hnorm ▸ h.norm_mul⟩, fun h => ⟨h.nonneg, h.lt, hnorm.trans h.norm_mul⟩⟩

theorem IsInverse.gcd_eq_one (h : IsInverse m v r) : Int.gcd v m = 1 := by
  obtain ⟨q, hq⟩ := h.dvd
  exact Int.isCoprime_iff_gcd_eq_one.1 ⟨r, -q, by linear_combination hq⟩

/-- The residue of the coefficient of `v` in Bézout's identity is an inverse. -/
theorem exists_isInverse (hm : 2 ≤ m) (h : Int.gcd v m = 1) : ∃ r, IsInverse m v r := by
  obtain ⟨a, b, hab⟩ := Int.isCoprime_iff_gcd_eq_one.2 h
  obtain ⟨q, hq⟩ := dvd_sub_normMod a m
  exact ⟨normMod a m, isInverse_of_dvd hm (normMod_nonneg a m (by omega)) (normMod_lt a m (by omega))
    ⟨-(v * q) - b, by linear_combination hab - v * hq⟩⟩

theorem not_isInverse (h : m = 1 ∨ Int.gcd v m ≠ 1) : ¬ IsInverse m v r := by
  rcases h with rfl | hgcd
  · exact fun hinv => absurd hinv.two_le (by omega)
  · exact fun hinv => hgcd hinv.gcd_eq_one

end

/-! ## The scan -/

section
variable {dt : Int} {m : Nat}

/-- All that the scan can do: answer an inverse, or fault because there is none. -/
theorem determinantInverse_cases (dt : Int) (m : Nat) :
    (∃ r, determinantInverse dt m = .ok r ∧ IsInverse m dt r) ∨
      determinantInverse dt m = .error (.raise .noModularInverse) ∧ ∀ r, ¬ IsInverse m dt r := by
  cases hscan : scanInverse dt m m 0 with
  | some r =>
    obtain ⟨-, hlt, hnorm, -⟩ := scanInverse_some dt m m 0 r hscan
    exact .inl ⟨r, by rw [determinantInverse, hscan], by omega, by omega, hnorm⟩
  | none =>
    refine .inr ⟨by rw [determinantInverse, hscan], fun r hr => ?_⟩
    obtain ⟨n, rfl⟩ := Int.eq_ofNat_of_zero_le hr.nonneg
    have hlt := hr.lt
    exact (scanInverse_none dt m m 0).1 hscan n (by omega) (by omega) hr.norm_mul

theorem isInverse_of_determinantInverse {r : Int} (h : determinantInverse dt m = .ok r) : IsInverse m dt r := by
  rcases determinantInverse_cases dt m with ⟨r', hr', hinv⟩ | ⟨herror, -⟩
  · cases hr'.symm.trans h
    exact hinv
  · cases herror.symm.trans h

theorem determinantInverse_of_isInverse {r : Int} (h : IsInverse m dt r) : determinantInverse dt m = .ok r := by
  rcases determinantInverse_cases dt m with ⟨r', hr', hinv⟩ | ⟨-, hnone⟩
  · rw [hr', hinv.unique h]
  · exact absurd h (hnone r)

theorem determinantInverse_of_not_isInverse (h : ∀ r, ¬ IsInverse m dt r) :
    determinantInverse dt m = .error (.raise .noModularInverse) := by
  rcases determinantInverse_cases dt m with ⟨r, -, hinv⟩ | ⟨herror, -⟩
  · exact absurd hinv (h r)
  · exact herror

end

/-- Settles O22: the scan answers an inverse where one exists, and one exists exactly when the gcd is 1. -/
theorem scanFindsTheModularInverse : Obligations.ScanFindsTheModularInverse := by
  refine ⟨fun dt m hm => ⟨fun hgcd => ?found, fun hgcd => ?none, fun r r' h0 h1 h0' h1' hr hr' => ?unique⟩,
    fun dt => ?modulus_one, fun dt r m hm h0 h1 h0' h1' => ?fits⟩
  case found =>
    obtain ⟨r, hr⟩ := exists_isInverse hm hgcd
    exact ⟨r, determinantInverse_of_isInverse hr, hr.nonneg, hr.lt, hr.norm_mul⟩
  case none => exact determinantInverse_of_not_isInverse fun _ => not_isInverse (.inr hgcd)
  case unique => exact IsInverse.unique ⟨h0, h1, hr⟩ ⟨h0', h1', hr'⟩
  case modulus_one => exact determinantInverse_of_not_isInverse fun _ => not_isInverse (.inl rfl)
  case fits => exact Canonical.fits_mul hm ⟨h0, h1⟩ ⟨h0', h1'⟩

end Sys2Proof.Machine
end

section
/-! PROOFS. DET, DETINV and INV (42_key_matrix.md R150 to R156): the checks of each in their order and its result, and what
the three depend on. -/

namespace Sys2Proof.Machine

/-! ## Commands that compute a result and then write it -/

section
variable {α : Type} {i : Instr} {s t : State} {r : Except Abort α} {write : α → State}
  (hexec : exec i s = complete i s (r.map write))
include hexec

theorem exec_faults_of_error {c : Cause} (hr : r = .error (.raise c)) :
    ∃ t, exec i s = .next t ∧ Faults (encode i) c s t :=
  exec_faults (by rw [hexec, hr]; rfl)

theorem exec_next_of_ok {a : α} (hr : r = .ok a) : exec i s = .next (retire (write a)) := by
  rw [hexec, hr]
  rfl

/-- All that such a command can do, when it gives a next state. -/
theorem exec_next_cases (h : exec i s = .next t) :
    (∃ a, r = .ok a ∧ t = retire (write a)) ∨ ∃ c, r = .error (.raise c) ∧ t = enterFault c (encode i) s := by
  rw [hexec] at h
  rcases r with (c | f) | a
  · exact .inr ⟨c, rfl, (Host.Outcome.next.inj h).symm⟩
  · cases h
  · exact .inl ⟨a, rfl, (Host.Outcome.next.inj h).symm⟩

/-- A command that retires has computed its result: fault entry keeps CIX. -/
theorem Retires.computed (h : Retires i s t) : ∃ a, r = .ok a ∧ t = retire (write a) := by
  obtain ⟨hnext, hcix⟩ := h
  rcases exec_next_cases hexec hnext with hok | ⟨c, -, rfl⟩
  · exact hok
  · simp at hcix

/-- A command that faults has computed no result: retiring advances CIX. -/
theorem Faults.raised (hwrite : ∀ a, (write a).cix = s.cix) (hnext : exec i s = .next t) {c : Cause}
    (h : Faults (encode i) c s t) : ∃ c', r = .error (.raise c') ∧ causeCode c' = causeCode c := by
  rcases exec_next_cases hexec hnext with ⟨a, -, rfl⟩ | ⟨c', hr, rfl⟩
  · have hcix := h.cix_eq
    simp [hwrite] at hcix
  · exact ⟨c', hr, h.cause_eq⟩

end

/-- Fault entry records a cause by its code. -/
theorem Faults.of_causeCode_eq {w : Word} {c c' : Cause} {s t : State} (h : Faults w c' s t)
    (hcode : causeCode c' = causeCode c) : Faults w c s t :=
  { h with cause_eq := h.cause_eq.trans hcode }

/-! ## What the three commands compute -/

theorem exec_det_vec (xd : XReg) (j : VReg) (s : State) :
    exec (.det xd (.vec j)) s = complete (.det xd (.vec j)) s (.error (.raise .unsupportedOperation)) := rfl

theorem exec_detinv_vec (xd : XReg) (j : VReg) (s : State) :
    exec (.detinv xd (.vec j)) s = complete (.detinv xd (.vec j)) s (.error (.raise .unsupportedOperation)) := rfl

theorem exec_inv_vec (kd : KReg) (j : VReg) (s : State) :
    exec (.inv kd (.vec j)) s = complete (.inv kd (.vec j)) s (.error (.raise .unsupportedOperation)) := rfl

theorem exec_det_key (xd : XReg) (j : KReg) (s : State) :
    exec (.det xd (.key j)) s = complete (.det xd (.key j)) s
      ((determinant (s.getK j) s.modulus).map fun dt => s.setX xd (toWord dt)) := rfl

theorem exec_detinv_key (xd : XReg) (j : KReg) (s : State) :
    exec (.detinv xd (.key j)) s = complete (.detinv xd (.key j)) s
      ((inverseOfDeterminant (s.getK j) s.modulus).map fun di => s.setX xd (toWord di)) := rfl

theorem exec_inv_key (kd j : KReg) (s : State) :
    exec (.inv kd (.key j)) s = complete (.inv kd (.key j)) s
      ((inverseKey (s.getK j) s.modulus).map fun k => s.setK kd k) := rfl

/-! ## The determinant's inverse and the inverse key -/

section
variable {k : KeyMatrix} {m : Nat} {di : Int}

theorem inverseOfDeterminant_of_not_fits (h : ¬ DetFits k) :
    inverseOfDeterminant k m = .error (.raise .arithOverflow) := by
  rw [inverseOfDeterminant, determinant_of_not_fits k m h]

theorem inverseOfDeterminant_of_fits (h : DetFits k) :
    inverseOfDeterminant k m = determinantInverse (normMod (detInt k) m) m := by
  rw [inverseOfDeterminant, determinant_of_fits k m h]

theorem inverseOfDeterminant_of_isInverse (hfits : DetFits k) (h : IsInverse m (detInt k) di) :
    inverseOfDeterminant k m = .ok di := by
  rw [inverseOfDeterminant_of_fits hfits]
  exact determinantInverse_of_isInverse (isInverse_normMod_iff.2 h)

theorem inverseOfDeterminant_of_not_coprime (hfits : DetFits k) (h : m = 1 ∨ Int.gcd (detInt k) m ≠ 1) :
    inverseOfDeterminant k m = .error (.raise .noModularInverse) := by
  rw [inverseOfDeterminant_of_fits hfits]
  exact determinantInverse_of_not_isInverse fun _ hr => not_isInverse h (isInverse_normMod_iff.1 hr)

theorem isInverse_of_inverseOfDeterminant (h : inverseOfDeterminant k m = .ok di) : IsInverse m (detInt k) di := by
  by_cases hfits : DetFits k
  · rw [inverseOfDeterminant_of_fits hfits] at h
    exact isInverse_normMod_iff.1 (isInverse_of_determinantInverse h)
  · cases (inverseOfDeterminant_of_not_fits hfits).symm.trans h

theorem inverseKey_of_error {e : Abort} (h : inverseOfDeterminant k m = .error e) : inverseKey k m = .error e := by
  rw [inverseKey, h]

theorem inverseKey_of_ok (h : inverseOfDeterminant k m = .ok di) : inverseKey k m = scaledAdjugate k di m := by
  rw [inverseKey, h]

theorem inverseKey_of_isInverse (hfits : DetFits k) (h : IsInverse m (detInt k) di) :
    inverseKey k m = scaledAdjugate k di m := inverseKey_of_ok (inverseOfDeterminant_of_isInverse hfits h)

/-- The fields of `k'` are the canonical residues of the adjugate of `k` scaled by `di` (R154). -/
structure IsScaledAdjugate (m : Nat) (k : KeyMatrix) (di : Int) (k' : KeyMatrix) : Prop where
  a : IsResidue k'.a (k.d.toInt * di) m
  b : IsResidue k'.b (-(k.b.toInt * di)) m
  c : IsResidue k'.c (-(k.c.toInt * di)) m
  d : IsResidue k'.d (k.a.toInt * di) m

theorem exists_scaledAdjugate (hm : 1 ≤ m ∧ m ≤ 32767) (h : AdjugateFits k di) :
    ∃ k', scaledAdjugate k di m = .ok k' ∧ IsScaledAdjugate m k di k' := by
  obtain ⟨hlo, hhi⟩ := hm
  have hresidue (v : Int) := isResidue_toWord_normMod v m hlo hhi
  exact ⟨_, scaledAdjugate_of_fits k di m h, hresidue _, hresidue _, hresidue _, hresidue _⟩

/-- A key that has been inverted was invertible, and its inverse is the scaled adjugate. -/
theorem isScaledAdjugate_of_inverseKey (hm : 1 ≤ m ∧ m ≤ 32767) {k' : KeyMatrix} (h : inverseKey k m = .ok k') :
    ∃ di, IsInverse m (detInt k) di ∧ IsScaledAdjugate m k di k' := by
  cases hdi : inverseOfDeterminant k m with
  | error e => cases (inverseKey_of_error hdi).symm.trans h
  | ok di =>
    rw [inverseKey_of_ok hdi] at h
    refine ⟨di, isInverse_of_inverseOfDeterminant hdi, ?_⟩
    by_cases hfits : AdjugateFits k di
    · obtain ⟨k'', hk'', hadjugate⟩ := exists_scaledAdjugate hm hfits
      cases hk''.symm.trans h
      exact hadjugate
    · cases (scaledAdjugate_of_not_fits k di m hfits).symm.trans h

end

/-! ## The commands -/

/-- Settles O13: the variant check, then the checks of the determinant, then its residue. -/
theorem detComputesDeterminantOrFaults : Obligations.DetComputesDeterminantOrFaults := by
  intro xd s
  refine ⟨fun ma => rfl, fun j => exec_faults (exec_det_vec xd j s), fun j hfits => ?overflow,
    fun j hm hfits => ?result⟩
  case overflow => exact exec_faults_of_error (exec_det_key xd j s) (determinant_of_not_fits _ _ hfits)
  case result =>
    obtain ⟨hlo, hhi⟩ := hm
    exact ⟨_, _, exec_next_of_ok (exec_det_key xd j s) (determinant_of_fits _ _ hfits), writesX_setX s xd _,
      isResidue_toWord_normMod _ _ hlo hhi⟩

theorem toInt_toWord_of_isInverse {m : Nat} {v r : Int} (hm : m ≤ 32767) (h : IsInverse m v r) :
    (toWord r).toInt = r := by
  obtain ⟨hnonneg, hlt, -⟩ := h
  exact toInt_toWord r ((fits32_iff r).2 (by omega))

/-- Settles O14: the checks of the determinant come first, then the scan, which answers the inverse if there is one. -/
theorem detinvComputesInverseOrFaults : Obligations.DetinvComputesInverseOrFaults := by
  intro xd s
  refine ⟨fun ma => rfl, fun j => exec_faults (exec_detinv_vec xd j s), fun j hfits => ?overflow,
    fun j _ hfits hnone => ?no_inverse, fun j hm hfits htwo hgcd => ?result⟩
  case overflow => exact exec_faults_of_error (exec_detinv_key xd j s) (inverseOfDeterminant_of_not_fits hfits)
  case no_inverse =>
    exact exec_faults_of_error (exec_detinv_key xd j s) (inverseOfDeterminant_of_not_coprime hfits hnone)
  case result =>
    obtain ⟨di, hdi⟩ := exists_isInverse htwo hgcd
    refine ⟨_, _, exec_next_of_ok (exec_detinv_key xd j s) (inverseOfDeterminant_of_isInverse hfits hdi),
      writesX_setX s xd _, ?_⟩
    rw [toInt_toWord_of_isInverse hm.2 hdi]
    exact ⟨hdi.nonneg, hdi.lt, hdi.dvd⟩

/-- Settles O15: the faults of DETINV come first, then the checks of the adjugate, scaled by the one inverse there is. -/
theorem invComputesInverseMatrixOrFaults : Obligations.InvComputesInverseMatrixOrFaults := by
  intro kd s
  refine ⟨fun ma => rfl, fun j => exec_faults (exec_inv_vec kd j s), fun j hfits => ?overflow,
    fun j _ hfits hnone => ?no_inverse, fun j di _ hfits htwo h0 h1 hd hadjugate => ?overflow_adjugate,
    fun j di hm hfits htwo h0 h1 hd hadjugate => ?result⟩
  case overflow =>
    exact exec_faults_of_error (exec_inv_key kd j s) (inverseKey_of_error (inverseOfDeterminant_of_not_fits hfits))
  case no_inverse =>
    exact exec_faults_of_error (exec_inv_key kd j s)
      (inverseKey_of_error (inverseOfDeterminant_of_not_coprime hfits hnone))
  case overflow_adjugate =>
    have hkey := inverseKey_of_isInverse hfits (isInverse_of_dvd htwo h0 h1 hd)
    exact exec_faults_of_error (exec_inv_key kd j s) (hkey.trans (scaledAdjugate_of_not_fits _ _ _ hadjugate))
  case result =>
    have hkey := inverseKey_of_isInverse hfits (isInverse_of_dvd htwo h0 h1 hd)
    obtain ⟨k, hk, ha, hb, hc, hd⟩ := exists_scaledAdjugate hm hadjugate
    exact ⟨_, k, exec_next_of_ok (exec_inv_key kd j s) (hkey.trans hk), writesK_setK s kd k, ha, hb, hc, hd⟩

/-! ## What the commands depend on (R156) -/

/-- The command `i` computes `f` of the fields of the key register `j` and of MOD, and then writes the result. -/
structure ComputesFromKey {α : Type} (i : Instr) (j : KReg) (f : KeyMatrix → Nat → Except Abort α)
    (write : State → α → State) : Prop where
  exec_eq : ∀ s, exec i s = complete i s ((f (s.getK j) s.modulus).map (write s))
  write_cix : ∀ s a, (write s a).cix = s.cix

theorem det_computesFromKey (xd : XReg) (j : KReg) :
    ComputesFromKey (.det xd (.key j)) j determinant fun s dt => s.setX xd (toWord dt) :=
  ⟨exec_det_key xd j, fun _ _ => rfl⟩

theorem detinv_computesFromKey (xd : XReg) (j : KReg) :
    ComputesFromKey (.detinv xd (.key j)) j inverseOfDeterminant fun s di => s.setX xd (toWord di) :=
  ⟨exec_detinv_key xd j, fun _ _ => rfl⟩

theorem inv_computesFromKey (kd j : KReg) :
    ComputesFromKey (.inv kd (.key j)) j inverseKey fun s k => s.setK kd k :=
  ⟨exec_inv_key kd j, fun _ _ => rfl⟩

section
variable {α : Type} {i : Instr} {j : KReg} {f : KeyMatrix → Nat → Except Abort α} {write : State → α → State}
  {s s' t : State} (hi : ComputesFromKey i j f write) (hkey : s.getK j = s'.getK j) (hmod : s.mod = s'.mod)
include hi hkey hmod

/-- States that agree on the key and MOD give the command the same result to write. -/
theorem ComputesFromKey.exec_of_agree :
    exec i s' = complete i s' ((f (s.getK j) s.modulus).map (write s')) := by
  have hmodulus : s.modulus = s'.modulus := congrArg BitVec.toNat hmod
  rw [hkey, hmodulus]
  exact hi.exec_eq s'

theorem ComputesFromKey.retires_of_agree (h : Retires i s t) :
    ∃ a, t = retire (write s a) ∧ Retires i s' (retire (write s' a)) := by
  obtain ⟨a, hr, rfl⟩ := h.computed (hi.exec_eq s)
  exact ⟨a, rfl, exec_next_of_ok (hi.exec_of_agree hkey hmod) hr, congrArg (· + 1) (hi.write_cix s' a)⟩

theorem ComputesFromKey.faults_of_agree {c : Cause} (hnext : exec i s = .next t) (h : Faults (encode i) c s t) :
    ∃ t', exec i s' = .next t' ∧ Faults (encode i) c s' t' := by
  obtain ⟨c', hr, hcode⟩ := h.raised (hi.exec_eq s) (hi.write_cix s) hnext
  obtain ⟨t', hnext', hfaults⟩ := exec_faults_of_error (hi.exec_of_agree hkey hmod) hr
  exact ⟨t', hnext', hfaults.of_causeCode_eq hcode⟩

end

/-- Settles O28: each of the three commands computes its result from the key and the modulus alone. -/
theorem determinantCommandsReadOnlyKeyAndModulus : Obligations.DeterminantCommandsReadOnlyKeyAndModulus := by
  intro xd kd j s s' hkey hmod
  refine ⟨fun t h => ?det, fun t h => ?detinv, fun t h => ?inv, fun i hi t c hnext h => ?faults⟩
  case det =>
    obtain ⟨dt, rfl, hretires⟩ := (det_computesFromKey xd j).retires_of_agree hkey hmod h
    exact ⟨_, hretires, by simp⟩
  case detinv =>
    obtain ⟨di, rfl, hretires⟩ := (detinv_computesFromKey xd j).retires_of_agree hkey hmod h
    exact ⟨_, hretires, by simp⟩
  case inv =>
    obtain ⟨k, rfl, hretires⟩ := (inv_computesFromKey kd j).retires_of_agree hkey hmod h
    exact ⟨_, hretires, by simp⟩
  case faults =>
    have hcases : i = .det xd (.key j) ∨ i = .detinv xd (.key j) ∨ i = .inv kd (.key j) := by simpa using hi
    rcases hcases with rfl | rfl | rfl
    · exact (det_computesFromKey xd j).faults_of_agree hkey hmod hnext h
    · exact (detinv_computesFromKey xd j).faults_of_agree hkey hmod hnext h
    · exact (inv_computesFromKey kd j).faults_of_agree hkey hmod hnext h

end Sys2Proof.Machine
end

section
/-! PROOFS. The two laws of the key matrix (42_key_matrix.md R157, R158): a canonical residue is an equation in the integers
modulo MOD, and there the adjugate scaled by the determinant's inverse is the inverse matrix. -/

namespace Sys2Proof.Machine

/-! ## Residues as equations modulo m -/

section
variable {m : Nat} {w : Word} {v : Int}

theorem IsResidue.cast_eq (h : IsResidue w v m) : (w.toInt : ZMod m) = v := by
  obtain ⟨-, -, hd⟩ := h
  exact (ZMod.intCast_eq_intCast_iff_dvd_sub _ _ m).2 hd

/-- A canonical residue is the residue of every number it equals modulo `m`. -/
theorem IsResidue.of_cast_eq {v' : Int} (h : IsResidue w v m) (hv : (w.toInt : ZMod m) = v') : IsResidue w v' m := by
  obtain ⟨hnonneg, hlt, -⟩ := h
  exact ⟨hnonneg, hlt, (ZMod.intCast_eq_intCast_iff_dvd_sub _ _ m).1 hv⟩

theorem IsResidue.eq_of_canonical {w' : Word} (h : IsResidue w w'.toInt m) (hw' : Canonical m w'.toInt) : w = w' := by
  obtain ⟨hnonneg, hlt⟩ := hw'
  rw [isResidue_unique w _ m h, normMod_unique _ w'.toInt m hnonneg hlt (by simp), toWord_toInt]

theorem IsInverse.cast_mul_eq_one {r : Int} (h : IsInverse m v r) : (v * r : ZMod m) = 1 := by
  have hcast := (ZMod.intCast_eq_intCast_iff_dvd_sub 1 (v * r) m).2 h.dvd
  push_cast at hcast
  exact hcast.symm

theorem detInt_cast (k : KeyMatrix) :
    (detInt k : ZMod m) = k.a.toInt * k.d.toInt - k.b.toInt * k.c.toInt := by
  simp [detInt]

end

section
variable {m : Nat} {k k' : KeyMatrix} {di : Int}

theorem IsScaledAdjugate.cast_fields (h : IsScaledAdjugate m k di k') :
    (k'.a.toInt : ZMod m) = k.d.toInt * di ∧ (k'.b.toInt : ZMod m) = -(k.b.toInt * di) ∧
      (k'.c.toInt : ZMod m) = -(k.c.toInt * di) ∧ (k'.d.toInt : ZMod m) = k.a.toInt * di := by
  have ha := h.a.cast_eq
  have hb := h.b.cast_eq
  have hc := h.c.cast_eq
  have hd := h.d.cast_eq
  push_cast at ha hb hc hd
  exact ⟨ha, hb, hc, hd⟩

/-- The determinant of the inverse is the inverse of the determinant. -/
theorem IsScaledAdjugate.cast_detInt (h : IsScaledAdjugate m k di k') (hdi : IsInverse m (detInt k) di) :
    (detInt k' : ZMod m) = di := by
  obtain ⟨ha, hb, hc, hd⟩ := h.cast_fields
  have hone := hdi.cast_mul_eq_one
  rw [detInt_cast] at hone
  rw [detInt_cast, ha, hb, hc, hd]
  linear_combination (di : ZMod m) * hone

end

/-! ## The double inverse (R157) -/

/-- Each field of the inverse of the inverse is the residue of the field of the key. -/
theorem isResidue_of_double_inverse {m : Nat} {k k' k'' : KeyMatrix} {di di' : Int} (hdi : IsInverse m (detInt k) di)
    (h : IsScaledAdjugate m k di k') (hdi' : IsInverse m (detInt k') di') (h' : IsScaledAdjugate m k' di' k'') :
    IsResidue k''.a k.a.toInt m ∧ IsResidue k''.b k.b.toInt m ∧ IsResidue k''.c k.c.toInt m ∧
      IsResidue k''.d k.d.toInt m := by
  obtain ⟨ha, hb, hc, hd⟩ := h.cast_fields
  obtain ⟨ha', hb', hc', hd'⟩ := h'.cast_fields
  have hone : (di * di' : ZMod m) = 1 := by
    rw [← h.cast_detInt hdi]
    exact hdi'.cast_mul_eq_one
  refine ⟨h'.a.of_cast_eq ?_, h'.b.of_cast_eq ?_, h'.c.of_cast_eq ?_, h'.d.of_cast_eq ?_⟩
  · rw [ha', hd]
    linear_combination (k.a.toInt : ZMod m) * hone
  · rw [hb', hb]
    linear_combination (k.b.toInt : ZMod m) * hone
  · rw [hc', hc]
    linear_combination (k.c.toInt : ZMod m) * hone
  · rw [hd', ha]
    linear_combination (k.d.toInt : ZMod m) * hone

/-- What INV leaves when it retires: the scaled adjugate in the destination, and the rest as it was. -/
theorem Retires.inv {kd j : KReg} {s t : State} (hm : s.modOk) (h : Retires (.inv kd (.key j)) s t) :
    ∃ di, IsInverse s.modulus (detInt (s.getK j)) di ∧ IsScaledAdjugate s.modulus (s.getK j) di (t.getK kd) ∧
      t.modulus = s.modulus ∧ SameV s t := by
  obtain ⟨k, hk, rfl⟩ := h.computed (exec_inv_key kd j s)
  obtain ⟨di, hdi, hadjugate⟩ := isScaledAdjugate_of_inverseKey hm hk
  exact ⟨di, hdi, by simpa using hadjugate, rfl, fun _ => rfl⟩

/-- Settles O24. -/
theorem doubleInverseGivesBackTheKey : Obligations.DoubleInverseGivesBackTheKey := by
  intro k0 k1 k2 s s1 s2 hm h1 h2
  obtain ⟨di, hdi, hadjugate, hmod, -⟩ := h1.inv hm
  obtain ⟨di', hdi', hadjugate', -⟩ := h2.inv (by rwa [State.modOk, hmod])
  rw [hmod] at hdi' hadjugate'
  obtain ⟨ha, hb, hc, hd⟩ := isResidue_of_double_inverse hdi hadjugate hdi' hadjugate'
  refine ⟨ha, hb, hc, hd, fun hcanonical => ?_⟩
  have hkey : CanonicalKey s.modulus (s.getK k0) := CanonicalEntries.key hcanonical
  rw [KeyMatrix.mk.injEq]
  exact ⟨ha.eq_of_canonical hkey.a, hb.eq_of_canonical hkey.b, hc.eq_of_canonical hkey.c, hd.eq_of_canonical hkey.d⟩

/-! ## The round trip (R158) -/

/-- The row [x, y] is the row [p, q] times the key `k`, in canonical residues (R130, R132). -/
structure IsRowTimesKey (m : Nat) (p q : Word) (k : KeyMatrix) (x y : Word) : Prop where
  left : IsResidue x (p.toInt * k.a.toInt + q.toInt * k.c.toInt) m
  right : IsResidue y (p.toInt * k.b.toInt + q.toInt * k.d.toInt) m

theorem IsRowTimesKey.cast_entries {m : Nat} {p q x y : Word} {k : KeyMatrix} (h : IsRowTimesKey m p q k x y) :
    (x.toInt : ZMod m) = p.toInt * k.a.toInt + q.toInt * k.c.toInt ∧
      (y.toInt : ZMod m) = p.toInt * k.b.toInt + q.toInt * k.d.toInt := by
  have hx := h.left.cast_eq
  have hy := h.right.cast_eq
  push_cast at hx hy
  exact ⟨hx, hy⟩

/-- A row times a key and then times the key's inverse is the row, in canonical residues. -/
theorem isResidue_of_round_trip {m : Nat} {p q x y p' q' : Word} {k k' : KeyMatrix} {di : Int}
    (hdi : IsInverse m (detInt k) di) (hadjugate : IsScaledAdjugate m k di k') (h : IsRowTimesKey m p q k x y)
    (h' : IsRowTimesKey m x y k' p' q') : IsResidue p' p.toInt m ∧ IsResidue q' q.toInt m := by
  obtain ⟨ha, hb, hc, hd⟩ := hadjugate.cast_fields
  obtain ⟨hx, hy⟩ := h.cast_entries
  obtain ⟨hp', hq'⟩ := h'.cast_entries
  have hone := hdi.cast_mul_eq_one
  rw [detInt_cast] at hone
  constructor
  · refine h'.left.of_cast_eq ?_
    rw [hp', ha, hc, hx, hy]
    linear_combination (p.toInt : ZMod m) * hone
  · refine h'.right.of_cast_eq ?_
    rw [hq', hb, hd, hx, hy]
    linear_combination (q.toInt : ZMod m) * hone

/-- The product of a two-element row with a key, where it does not overflow, holds the exact sums (R131 i). -/
theorem toInt_of_multiply_pair_key {p q : Word} {k : KeyMatrix} {es : List Word}
    (h : multiply (.vec [p, q]) (.key k) = .ok es) :
    ∃ x y, es = [x, y] ∧ x.toInt = p.toInt * k.a.toInt + q.toInt * k.c.toInt ∧
      y.toInt = p.toInt * k.b.toInt + q.toInt * k.d.toInt := by
  by_cases hfits : ProductFits (.vec [p, q]) (.key k)
  · obtain ⟨⟨-, -, hleft⟩, -, -, hright⟩ := (productFits_key p q k).1 hfits
    cases (multiply_pair_key p q k hfits).symm.trans h
    exact ⟨_, _, rfl, toInt_toWord _ hleft, toInt_toWord _ hright⟩
  · cases (multiply_overflow [p, q] (.key k) rfl hfits).symm.trans h

/-- What RED of a row leaves. -/
theorem Retires.red_vec {j : VReg} {s t : State} (h : Retires (.red (.vec j)) s t) :
    t.getV j = (s.getV j).map (normWord s) ∧ t.modulus = s.modulus ∧ SameK s t := by
  obtain ⟨hnext, -⟩ := h
  rw [exec_red_vec] at hnext
  obtain rfl := Host.Outcome.next.inj hnext
  exact ⟨by simp, rfl, fun _ => rfl⟩

/-- What MUL by a key and RED leave when they retire: the row times the key in residues, the keys and MOD as they were. -/
theorem Retires.mul_red {va vd : VReg} {j : KReg} {p q : Word} {s s1 s2 : State} (hm : s.modOk)
    (hrow : s.getV va = [p, q]) (h1 : Retires (.mul vd (.vec va) (.key j)) s s1) (h2 : Retires (.red (.vec vd)) s1 s2) :
    ∃ x y, s2.getV vd = [x, y] ∧ IsRowTimesKey s.modulus p q (s.getK j) x y ∧ s2.modulus = s.modulus ∧ SameK s s2 := by
  obtain ⟨hlo, hhi⟩ := hm
  obtain ⟨es, hes, rfl⟩ := h1.computed (exec_mul vd (.vec va) (.key j) s)
  rw [State.matrix, State.matrix, hrow] at hes
  obtain ⟨x, y, rfl, hx, hy⟩ := toInt_of_multiply_pair_key hes
  obtain ⟨hreduced, hmod, hkeys⟩ := h2.red_vec
  rw [getV_retire, getV_setV_self] at hreduced
  have hresidue (w : Word) : IsResidue (normWord (retire (s.setV vd [x, y])) w) w.toInt s.modulus :=
    isResidue_toWord_normMod w.toInt s.modulus hlo hhi
  exact ⟨_, _, hreduced, ⟨hx ▸ hresidue x, hy ▸ hresidue y⟩, hmod, hkeys⟩

/-- Settles O25: encryption and decryption are each a product in residues, by the key and by its inverse. -/
theorem decryptionUndoesEncryption : Obligations.DecryptionUndoesEncryption := by
  intro v0 v1 v2 k0 k1 p q s s1 s2 s3 s4 s5 hm hrow hmul hred hinv hmul' hred'
  obtain ⟨x, y, hcipher, hencrypt, hmod2, hkeys⟩ := Retires.mul_red hm hrow hmul hred
  obtain ⟨di, hdi, hadjugate, hmod3, hsameV⟩ := hinv.inv (by rwa [State.modOk, hmod2])
  rw [hkeys k0, hmod2] at hdi hadjugate
  rw [hmod2] at hmod3
  obtain ⟨p', q', hplain, hdecrypt, -⟩ :=
    Retires.mul_red (by rwa [State.modOk, hmod3]) ((hsameV v1).trans hcipher) hmul' hred'
  rw [hmod3] at hdecrypt
  exact ⟨p', q', hplain, isResidue_of_round_trip hdi hadjugate hencrypt hdecrypt⟩

end Sys2Proof.Machine
end

section
/-! PROOFS. The block codec (43_block_codec.md R165 to R172): letters and digits, the text that holds the letters of a
vector, what each of the four commands computes, and the two round trips. -/

namespace Sys2Proof.Machine

/-! ## Letters and digits (R165) -/

theorem toWord_eq_iff {v : Int} (h : fits32 v = true) (w : Word) : toWord v = w ↔ w.toInt = v :=
  ⟨fun hw => hw ▸ toInt_toWord v h, fun hw => hw ▸ toWord_toInt w⟩

theorem LetterCode.fits_digit {b : Int} {m : Nat} (h : LetterCode b m) : fits32 (b - 65) = true := by
  obtain ⟨hlo, hhi, -⟩ := h
  exact (fits32_iff _).2 (by omega)

theorem DigitValue.fits_letter {d : Int} {m : Nat} (h : DigitValue d m) : fits32 (d + 65) = true := by
  obtain ⟨hlo, -, hhi⟩ := h
  exact (fits32_iff _).2 (by omega)

/-- All that `letterToDigit` can answer besides a fault. -/
theorem letterToDigit_eq_ok_iff (b : Int) (m : Nat) (w : Word) :
    letterToDigit b m = .ok w ↔ LetterCode b m ∧ w.toInt = b - 65 := by
  by_cases h : LetterCode b m
  · rw [letterToDigit_of_letter b m h, Except.ok.injEq, toWord_eq_iff h.fits_digit]
    exact (and_iff_right h).symm
  · simp [letterToDigit_of_not_letter b m h, h]

/-- All that `digitToLetter` can answer besides a fault. -/
theorem digitToLetter_eq_ok_iff (d : Int) (m : Nat) (w : Word) :
    digitToLetter d m = .ok w ↔ DigitValue d m ∧ w.toInt = d + 65 := by
  by_cases h : DigitValue d m
  · rw [digitToLetter_of_digit d m h, Except.ok.injEq, toWord_eq_iff h.fits_letter]
    exact (and_iff_right h).symm
  · simp [digitToLetter_of_not_digit d m h, h]

/-- The two maps are inverse to each other, and one is defined exactly where the other answers. -/
theorem digitToLetter_eq_ok_iff_letterToDigit (b d : Word) (m : Nat) :
    digitToLetter d.toInt m = .ok b ↔ letterToDigit b.toInt m = .ok d := by
  rw [digitToLetter_eq_ok_iff, letterToDigit_eq_ok_iff, DigitValue, LetterCode]
  omega

/-- The byte `b` is the letter of the digit `d` in the alphabet of `m` letters. -/
def IsLetterOf (m : Nat) (b : Byte) (d : Word) : Prop := letterToDigit b.toNat m = .ok d

section
variable {m : Nat} {b b' : Byte} {d d' : Word}

theorem isLetterOf_iff_letterCode : IsLetterOf m b d ↔ LetterCode b.toNat m ∧ d.toInt = b.toNat - 65 :=
  letterToDigit_eq_ok_iff b.toNat m d

theorem isLetterOf_iff_digitValue : IsLetterOf m b d ↔ DigitValue d.toInt m ∧ (b.toNat : Int) = d.toInt + 65 := by
  rw [isLetterOf_iff_letterCode, LetterCode, DigitValue]
  omega

theorem IsLetterOf.letter_eq (h : IsLetterOf m b d) (h' : IsLetterOf m b' d) : b = b' := by
  obtain ⟨-, hb⟩ := isLetterOf_iff_digitValue.1 h
  obtain ⟨-, hb'⟩ := isLetterOf_iff_digitValue.1 h'
  exact BitVec.eq_of_toNat_eq (by omega)

theorem DigitValue.isLetterOf (h : DigitValue d.toInt m) : IsLetterOf m ((toWord (d.toInt + 65)).setWidth 8) d :=
  isLetterOf_iff_digitValue.2 ⟨h, letter_toNat d m h⟩

end

/-! ## Blocks of text (R168 to R171) -/

/-- The text of `s` from address `a` holds the letters of the vector `es`, the first element at the lowest address. -/
def HoldsLetters (s : State) (a : Nat) (es : List Word) : Prop :=
  ∀ (e : Nat) (h : e < es.length), IsLetterOf s.modulus (byteAt s (a + e)) es[e]

section
variable {s u : State} {a : Nat} {es : List Word}

theorem holdsLetters_pair_iff {d0 d1 : Word} :
    HoldsLetters s a [d0, d1] ↔
      IsLetterOf s.modulus (byteAt s a) d0 ∧ IsLetterOf s.modulus (byteAt s (a + 1)) d1 := by
  refine ⟨fun h => ⟨h 0 (by simp), h 1 (by simp)⟩, fun ⟨h0, h1⟩ e he => ?_⟩
  match e, he with
  | 0, _ => exact h0
  | 1, _ => exact h1

theorem HoldsLetters.digits (h : HoldsLetters s a es) : ∀ e ∈ es, DigitValue e.toInt s.modulus := by
  intro e he
  obtain ⟨n, hn, rfl⟩ := List.mem_iff_getElem.1 he
  exact (isLetterOf_iff_digitValue.1 (h n hn)).1

/-- Under one modulus the letters of a vector are determined by it. -/
theorem HoldsLetters.byteAt_eq (h : HoldsLetters s a es) (hu : HoldsLetters u a es) (hmod : u.modulus = s.modulus)
    (e : Nat) (he : e < es.length) : byteAt u (a + e) = byteAt s (a + e) :=
  (hmod ▸ hu e he).letter_eq (h e he)

theorem decodeBlock_eq_ok_iff (b0 b1 : Byte) (m : Nat) (es : List Word) :
    decodeBlock b0 b1 m = .ok es ↔ ∃ d0 d1, es = [d0, d1] ∧ IsLetterOf m b0 d0 ∧ IsLetterOf m b1 d1 := by
  unfold decodeBlock IsLetterOf
  cases letterToDigit b0.toNat m with
  | error e => simp
  | ok d0 =>
    cases letterToDigit b1.toNat m with
    | error e => simp
    | ok d1 => simp [eq_comm]

/-- A block decodes to the vector of length 2 whose letters it holds. -/
theorem decodeBlock_byteAt_eq_ok_iff :
    decodeBlock (byteAt s a) (byteAt s (a + 1)) s.modulus = .ok es ↔ es.length = 2 ∧ HoldsLetters s a es := by
  rw [decodeBlock_eq_ok_iff]
  constructor
  · rintro ⟨d0, d1, rfl, hletters⟩
    exact ⟨rfl, holdsLetters_pair_iff.2 hletters⟩
  · rintro ⟨hpair, hletters⟩
    obtain ⟨d0, d1, rfl⟩ := List.length_eq_two.1 hpair
    exact ⟨d0, d1, rfl, holdsLetters_pair_iff.1 hletters⟩

/-- All that `loadBlock` can answer besides a fault. -/
theorem loadBlock_eq_ok_iff (htlen : s.tlenOk) :
    loadBlock s a = .ok es ↔ a % 2 = 0 ∧ a + 2 ≤ s.textLength ∧ es.length = 2 ∧ HoldsLetters s a es := by
  rcases Nat.mod_two_eq_zero_or_one a with heven | hodd
  · rcases Nat.lt_or_ge s.textLength (a + 2) with hout | hin
    · simp [loadBlock_outside s a heven hout, Nat.not_le.2 hout]
    · simp [loadBlock_inside s a heven hin htlen, decodeBlock_byteAt_eq_ok_iff, heven, hin]
  · simp [loadBlock_odd s a hodd, hodd]

/-- What `storeBlock` leaves when every check passes: the letters of the vector, and every other byte as it was. -/
theorem storeBlock_of_digits (htlen : s.tlenOk) (hin : a + es.length ≤ s.textLength)
    (hdigits : ∀ e ∈ es, DigitValue e.toInt s.modulus) :
    ∃ m, storeBlock s a es = .ok { s with tmem := m } ∧ HoldsLetters { s with tmem := m } a es ∧
      ∀ b, b < a ∨ a + es.length ≤ b → byteAt { s with tmem := m } b = byteAt s b := by
  obtain ⟨m, hm, -, hout, hletters⟩ := storeBlock_digits s a es hin htlen hdigits
  refine ⟨m, hm, fun e he => ?_, fun b hb => ?_⟩
  · rw [byteAt, hletters e he]
    exact (hdigits es[e] (List.getElem_mem he)).isLetterOf
  · rw [byteAt, hout b hb]
    rfl

/-- All that `storeBlock` can answer besides a fault. -/
theorem storeBlock_eq_ok (htlen : s.tlenOk) (h : storeBlock s a es = .ok u) :
    a + es.length ≤ s.textLength ∧ HoldsLetters u a es ∧ u.textLength = s.textLength := by
  rcases Nat.lt_or_ge s.textLength (a + es.length) with hout | hin
  · cases (storeBlock_outside s a es hout).symm.trans h
  by_cases hdigits : ∀ e ∈ es, DigitValue e.toInt s.modulus
  · obtain ⟨m, hm, hletters, -⟩ := storeBlock_of_digits htlen hin hdigits
    cases hm.symm.trans h
    exact ⟨hin, hletters, rfl⟩
  · cases (storeBlock_not_digits s a es hin (by simpa using hdigits)).symm.trans h

end

/-! ## The commands (R166, R167, R169, R171) -/

theorem exec_l2d (xd xs : XReg) (s : State) :
    exec (.l2d xd xs) s =
      complete (.l2d xd xs) s ((letterToDigit (s.getX xs).toInt s.modulus).map fun w => s.setX xd w) := rfl

theorem exec_d2l (xd xs : XReg) (s : State) :
    exec (.d2l xd xs) s =
      complete (.d2l xd xs) s ((digitToLetter (s.getX xs).toInt s.modulus).map fun w => s.setX xd w) := rfl

theorem exec_ldblk (vd : VReg) (addr : Imm16) (s : State) :
    exec (.ldblk vd addr) s =
      complete (.ldblk vd addr) s ((loadBlock s addr.toNat).map fun es => s.setV vd es) := rfl

/-- STBLK computes the state it leaves, so there is nothing more to write. -/
theorem exec_stblk (va : VReg) (addr : Imm16) (s : State) :
    exec (.stblk va addr) s = complete (.stblk va addr) s ((storeBlock s addr.toNat (s.getV va)).map id) := by
  rw [Except.map_id]
  rfl

/-- Settles O16. -/
theorem letterToDigitOrFaults : Obligations.LetterToDigitOrFaults := by
  intro xd xs s
  refine ⟨rfl, fun hletter => ?letter, fun hnot => ?other⟩
  case letter =>
    have hdigit := letterToDigit_of_letter _ _ hletter
    exact ⟨_, _, exec_next_of_ok (exec_l2d xd xs s) hdigit, writesX_setX s xd _, toInt_toWord _ hletter.fits_digit⟩
  case other => exact exec_faults_of_error (exec_l2d xd xs s) (letterToDigit_of_not_letter _ _ hnot)

/-- Settles O17. -/
theorem digitToLetterOrFaults : Obligations.DigitToLetterOrFaults := by
  intro xd xs s
  refine ⟨rfl, fun hdigit => ?digit, fun hnot => ?other⟩
  case digit =>
    have hletter := digitToLetter_of_digit _ _ hdigit
    exact ⟨_, _, exec_next_of_ok (exec_d2l xd xs s) hletter, writesX_setX s xd _, toInt_toWord _ hdigit.fits_letter⟩
  case other => exact exec_faults_of_error (exec_d2l xd xs s) (digitToLetter_of_not_digit _ _ hnot)

/-- Settles O18, by the checks of `loadBlock` in their order. -/
theorem ldblkLoadsBlockOrFaults : Obligations.LdblkLoadsBlockOrFaults := by
  intro vd addr s
  refine ⟨rfl, fun hodd => ?odd, fun heven hout => ?outside, fun heven hin htlen hnot => ?symbol,
    fun heven hin htlen h0 h1 => ?loads⟩
  case odd => exact exec_faults_of_error (exec_ldblk vd addr s) (loadBlock_odd s _ hodd)
  case outside => exact exec_faults_of_error (exec_ldblk vd addr s) (loadBlock_outside s _ heven hout)
  case symbol =>
    have hload := (loadBlock_inside s _ heven hin htlen).trans (decodeBlock_not_letters _ _ _ hnot)
    exact exec_faults_of_error (exec_ldblk vd addr s) hload
  case loads =>
    have hload := (loadBlock_inside s _ heven hin htlen).trans (decodeBlock_letters _ _ _ h0 h1)
    exact ⟨_, _, _, exec_next_of_ok (exec_ldblk vd addr s) hload, writesV_setV s vd _,
      toInt_toWord _ h0.fits_digit, toInt_toWord _ h1.fits_digit⟩

/-- Settles O19, by the checks of `storeBlock` in their order and the text it leaves. -/
theorem stblkStoresBlockOrFaults : Obligations.StblkStoresBlockOrFaults := by
  intro va addr s
  refine ⟨rfl, fun hout => ?outside, fun hin hnot => ?symbol, fun hin htlen hdigits => ?stores⟩
  case outside => exact exec_faults_of_error (exec_stblk va addr s) (storeBlock_outside s _ _ hout)
  case symbol => exact exec_faults_of_error (exec_stblk va addr s) (storeBlock_not_digits s _ _ hin hnot)
  case stores =>
    obtain ⟨m, hm, hletters, hothers⟩ := storeBlock_of_digits htlen hin hdigits
    have hcontrol : SameControl s (retire { s with tmem := m }) := by constructor <;> rfl
    exact ⟨_, exec_next_of_ok (exec_stblk va addr s) hm, fun _ => rfl, fun _ => rfl, fun _ => rfl, hcontrol, rfl,
      fun e he => (isLetterOf_iff_digitValue.1 (hletters e he)).2, hothers⟩

/-! ## The round trips (R165, R172) -/

section
variable {s t : State}

theorem Retires.l2d {xd xs : XReg} (h : Retires (.l2d xd xs) s t) :
    letterToDigit (s.getX xs).toInt s.modulus = .ok (t.getX xd) ∧ t.modulus = s.modulus := by
  obtain ⟨w, hw, rfl⟩ := h.computed (exec_l2d xd xs s)
  exact ⟨by simpa using hw, rfl⟩

theorem Retires.d2l {xd xs : XReg} (h : Retires (.d2l xd xs) s t) :
    digitToLetter (s.getX xs).toInt s.modulus = .ok (t.getX xd) ∧ t.modulus = s.modulus := by
  obtain ⟨w, hw, rfl⟩ := h.computed (exec_d2l xd xs s)
  exact ⟨by simpa using hw, rfl⟩

end

/-- Settles O27: each command's answer is one that the other's map takes back. -/
theorem lettersAndDigitsAreInverse : Obligations.LettersAndDigitsAreInverse := by
  intro xd xs xe s s1
  refine ⟨fun h => ?letter, fun h => ?digit⟩
  case letter =>
    obtain ⟨hdigit, hmod⟩ := h.l2d
    rw [← digitToLetter_eq_ok_iff_letterToDigit, ← hmod] at hdigit
    exact ⟨_, ⟨exec_next_of_ok (exec_d2l xe xd s1) hdigit, rfl⟩, by simp⟩
  case digit =>
    obtain ⟨hletter, hmod⟩ := h.d2l
    rw [digitToLetter_eq_ok_iff_letterToDigit, ← hmod] at hletter
    exact ⟨_, ⟨exec_next_of_ok (exec_l2d xe xd s1) hletter, rfl⟩, by simp⟩

/-- Settles O26: LDBLK loads the vector whose letters the text holds, and STBLK leaves text that holds the letters of the
vector. -/
theorem codecRoundTrip : Obligations.CodecRoundTrip := by
  refine ⟨fun vd addr s s1 u htlen h hvec hmod hlen => ?stored, fun va vd addr s s1 htlen heven hpair h => ?loaded⟩
  case stored =>
    obtain ⟨es, hload, rfl⟩ := h.computed (exec_ldblk vd addr s)
    obtain ⟨-, hin, hpair, hletters⟩ := (loadBlock_eq_ok_iff htlen).1 hload
    have hmodulus : u.modulus = s.modulus := congrArg BitVec.toNat hmod
    have hlength : u.textLength = s.textLength := congrArg BitVec.toNat hlen
    rw [getV_retire, getV_setV_self] at hvec
    obtain ⟨m, hstore, hstored, -⟩ := storeBlock_of_digits (s := u) (a := addr.toNat) (es := es)
      (by rwa [State.tlenOk, hlength]) (by rwa [hpair, hlength]) (by rw [hmodulus]; exact hletters.digits)
    have hbytes := hletters.byteAt_eq hstored hmodulus
    rw [← hvec] at hstore
    exact ⟨_, ⟨exec_next_of_ok (exec_stblk vd addr u) hstore, rfl⟩, hbytes 0 (by omega),
      hbytes 1 (by omega)⟩
  case loaded =>
    obtain ⟨t, hstore, rfl⟩ := h.computed (exec_stblk va addr s)
    obtain ⟨hin, hletters, hlength⟩ := storeBlock_eq_ok htlen hstore
    rw [hpair] at hin
    have hload : loadBlock (retire t) addr.toNat = .ok (s.getV va) :=
      (loadBlock_eq_ok_iff (by rwa [State.tlenOk, textLength_retire, hlength])).2
        ⟨heven, by rwa [textLength_retire, hlength], hpair, hletters⟩
    exact ⟨_, ⟨exec_next_of_ok (exec_ldblk vd addr (retire t)) hload, rfl⟩, by simp⟩

end Sys2Proof.Machine
end

section
/-! PROOFS. The system and scalar-load commands (44_system_commands.md R185 to R189): NOP, LI, LIH, CRR, CRW. -/

namespace Sys2Proof.Machine

/-! ## NOP (R185) -/

theorem encode_nop : encode .nop = 0 := rfl

theorem decode_eq_nop_iff (w : Word) : decode w = .ok .nop ↔ w = 0 := by
  constructor
  · intro h
    obtain ⟨hencode, -⟩ := encodeOfDecode w .nop h
    exact hencode.symm.trans encode_nop
  · rintro rfl
    exact decodeOfEncode .nop rfl

theorem exec_nop (s : State) : exec .nop s = .next (retire s) := rfl

theorem sameControl_retire (s : State) : SameControl s (retire s) := by constructor <;> rfl

/-- Settles O1. -/
theorem nopRetiresAndChangesNothingElse : Obligations.NopRetiresAndChangesNothingElse := by
  intro s
  exact ⟨decode_eq_nop_iff, _, exec_nop s, getX_retire s, getV_retire s, getK_retire s, byteAt_retire s,
    sameControl_retire s, retire_cix s⟩

/-! ## LI and LIH (R186, R187) -/

theorem exec_li (xd : XReg) (imm : Imm16) (s : State) :
    exec (.li xd imm) s = .next (retire (s.setX xd (sext32 imm))) := rfl

theorem exec_lih (xd : XReg) (imm : Imm16) (s : State) :
    exec (.lih xd imm) s = .next (retire (s.setX xd (highHalf imm (s.getX xd)))) := rfl

theorem toInt_sext32 (imm : Imm16) : (sext32 imm).toInt = imm.toInt :=
  BitVec.toInt_signExtend_of_le (by decide)

theorem high_highHalf (imm : Imm16) (old : Word) : (highHalf imm old).extractLsb' 16 16 = imm :=
  BitVec.extractLsb'_append_eq_left

theorem low_highHalf (imm : Imm16) (old : Word) : (highHalf imm old).extractLsb' 0 16 = old.extractLsb' 0 16 :=
  BitVec.extractLsb'_append_eq_right

/-- Settles O2: sign extension keeps the signed value. -/
theorem liLoadsSignedImmediate : Obligations.LiLoadsSignedImmediate := by
  intro xd imm s
  exact ⟨rfl, _, _, exec_li xd imm s, writesX_setX s xd _, toInt_sext32 imm⟩

/-- Settles O3. -/
theorem lihReplacesHighHalf : Obligations.LihReplacesHighHalf := by
  intro xd imm s
  exact ⟨rfl, _, _, exec_lih xd imm s, writesX_setX s xd _, high_highHalf imm _, low_highHalf imm _⟩

/-! ## Numbers that name no control register (R100) -/

theorem whenWellFormed_of_not_wellFormed {i : Instr} (h : ¬ i.wellFormed = true) :
    whenWellFormed i = .error .restrictedField := if_neg h

/-- The one test left to the decoder on a CRR word is the limit on its number. -/
theorem decode_encode_crr (xd : XReg) (cr : Field4) : decode (encode (.crr xd cr)) = whenWellFormed (.crr xd cr) := by
  simp [decode, encode, whenZero]

/-- The one test left to the decoder on a CRW word is the limit on its number. -/
theorem decode_encode_crw (cr : Field4) (xs : XReg) : decode (encode (.crw cr xs)) = whenWellFormed (.crw cr xs) := by
  simp [decode, encode, whenZero]

theorem decode_encode_crr_of_lt {cr : Field4} (xd : XReg) (h : 6 < cr.toNat) :
    decode (encode (.crr xd cr)) = .error .restrictedField :=
  (decode_encode_crr xd cr).trans (whenWellFormed_of_not_wellFormed (mt (wellFormed_crr xd cr).1 h.not_ge))

theorem decode_encode_crw_of_lt {cr : Field4} (xs : XReg) (h : 1 < cr.toNat) :
    decode (encode (.crw cr xs)) = .error .restrictedField :=
  (decode_encode_crw cr xs).trans (whenWellFormed_of_not_wellFormed (mt (wellFormed_crw cr xs).1 h.not_ge))

/-! ## CRR (R188) -/

/-- Every number up to 6 is assigned (R32). -/
theorem exists_controlRead {n : Nat} (s : State) (h : n ≤ 6) : ∃ w, controlRead s n = some w := by
  interval_cases n <;> exact ⟨_, rfl⟩

theorem exec_crr_of_some {xd : XReg} {cr : Field4} {s : State} {w : Word} (h : controlRead s cr.toNat = some w) :
    exec (.crr xd cr) s = .next (retire (s.setX xd w)) := by
  simp only [exec, execCrr, h, complete_ok]

/-- STATUS, CAUSE, FCIX and FCMD read as zero while FAULT = 0 (R35 to R37). -/
theorem controlRead_record {n : Nat} {s : State} (hrecord : s.recordOk) (hf : s.faulted = false) (hlo : 2 ≤ n)
    (hhi : n ≤ 5) : controlRead s n = some 0 := by
  rcases hrecord with ⟨hstatus, hcause, hfcix, hfcmd⟩ | ⟨hstatus, -⟩
  · obtain rfl | rfl | rfl | rfl : n = 2 ∨ n = 3 ∨ n = 4 ∨ n = 5 := by omega
    · exact congrArg some (by rw [statusWord_eq, hf]; rfl)
    · exact congrArg some hcause
    · exact congrArg some hfcix
    · exact congrArg some hfcmd
  · simp [State.faulted, hstatus] at hf

/-- Settles O4: the word written is the one word that `controlRead` gives for the number, in the state before. -/
theorem crrReadsControlRegister : Obligations.CrrReadsControlRegister := by
  intro xd cr s
  refine ⟨rfl, fun hassigned => ?assigned, fun h => ⟨_, decode_encode_crr_of_lt xd h⟩⟩
  obtain ⟨w, hw⟩ := exists_controlRead s hassigned
  have value {n : Field4} {v : Word} (hv : controlRead s n.toNat = some v) (hcr : cr = n) : w = v :=
    Option.some.inj (hw.symm.trans (hcr ▸ hv))
  have hstatus : controlRead s (2 : Field4).toNat = some (if s.faulted then 1 else 0) :=
    congrArg some (statusWord_eq s)
  exact ⟨_, w, exec_crr_of_some hw, writesX_setX s xd w, value rfl, value rfl, value hstatus, value rfl, value rfl,
    value rfl, value rfl, fun hrecord hf hlo hhi => value (controlRead_record hrecord hf hlo hhi) rfl⟩

/-! ## CRW (R189) -/

theorem exec_crw (cr : Field4) (xs : XReg) (s : State) :
    exec (.crw cr xs) s = complete (.crw cr xs) s (controlWrite s cr.toNat (s.getX xs)) := rfl

theorem writesControl_retire (s : State) (mod tlen : Word) :
    WritesControl s (retire { s with mod := mod, tlen := tlen }) mod tlen where
  mod_eq := rfl
  tlen_eq := rfl
  sameX _ := rfl
  sameV _ := rfl
  sameK _ := rfl
  sameText _ := rfl
  status_eq := rfl
  cause_eq := rfl
  fcix_eq := rfl
  fcmd_eq := rfl
  powerOns_eq := rfl
  input_eq := rfl
  readData_eq := rfl
  cix_eq := rfl

section
variable {cr : Field4} {xs : XReg} {s : State}

theorem exec_crw_of_ok {u : State} (h : controlWrite s cr.toNat (s.getX xs) = .ok u) :
    exec (.crw cr xs) s = .next (retire u) := by
  rw [exec_crw, h, complete_ok]

theorem exec_crw_of_error {c : Cause} (h : controlWrite s cr.toNat (s.getX xs) = .error (.raise c)) :
    ∃ t, exec (.crw cr xs) s = .next t ∧ Faults (encode (.crw cr xs)) c s t :=
  exec_faults (by rw [exec_crw, h])

end

/-- Settles O5: the write of either register is decided by the one range test of `controlWrite`. -/
theorem crwWritesLegalValuesOnly : Obligations.CrwWritesLegalValuesOnly := by
  intro xs s
  refine ⟨rfl, rfl, fun hlo hhi => ?mod, fun h => ?mod_refused, fun hlo hhi => ?tlen, fun h => ?tlen_refused,
    fun cr h => ⟨_, decode_encode_crw_of_lt xs h⟩⟩
  case mod =>
    have hwrite := (controlWrite_mod s (s.getX xs)).trans (if_pos ⟨hlo, hhi⟩)
    exact ⟨_, exec_crw_of_ok hwrite, writesControl_retire s (s.getX xs) s.tlen⟩
  case mod_refused => exact exec_crw_of_error ((controlWrite_mod s (s.getX xs)).trans (if_neg h))
  case tlen =>
    have hwrite := (controlWrite_tlen s (s.getX xs)).trans (if_pos ⟨hlo, hhi⟩)
    exact ⟨_, exec_crw_of_ok hwrite, writesControl_retire s s.mod (s.getX xs)⟩
  case tlen_refused => exact exec_crw_of_error ((controlWrite_tlen s (s.getX xs)).trans (if_neg h))

end Sys2Proof.Machine
end

section
/-! PROOFS. The faulted state (60_exceptions.md R202 to R205, R219): what a faulted unit discards, what leaves the state, and
which command a run of commands records in it. -/

namespace Sys2Proof.Machine

/-- Settles O36. -/
theorem faultedUnitDiscardsCommands : Obligations.FaultedUnitDiscardsCommands :=
  performAll_commandActions_of_faulted

/-! ## Leaving the faulted state (R205) -/

/-- A write to CTRL with bit 0 = 0 keeps the state (R72), so only one with bit 0 = 1 can clear STATUS.FAULT. -/
theorem faulted_writeCtrl_or_softReset (v : Word) (s : State) (hf : s.faulted = true) :
    (writeCtrl v s).faulted = true ∨ v.getLsbD 0 = true := by
  rw [writeCtrl_eq]
  split
  · exact .inr ‹_›
  · exact .inl hf

/-- Of the writes to the window, only a soft reset through CTRL can clear STATUS.FAULT: CMD discards its word, and a write
elsewhere reaches at most text memory. -/
theorem faulted_windowWrite_or_softReset {width : BusWidth} {offset : BitVec 17} {v : Word} {s t : State}
    (hf : s.faulted = true) (h : windowWrite width offset v s = .next t) :
    t.faulted = true ∨ (width = .word ∧ offset = 4 ∧ v.getLsbD 0 = true) := by
  rcases windowWrite_cases width offset v s with
    ⟨-, -, hissue⟩ | ⟨hwidth, hoffset, hctrl⟩ | ⟨a, -, -, -, htext⟩ | hsame | ⟨-, hrefused⟩
  · cases (hissue.trans (issue_of_faulted v s hf)).symm.trans h
    exact .inl hf
  · cases hctrl.symm.trans h
    exact (faulted_writeCtrl_or_softReset v s hf).imp_right fun hbit => ⟨hwidth, hoffset, hbit⟩
  · cases htext.symm.trans h
    exact .inl ((faulted_setByte s a _).trans hf)
  · cases hsame.symm.trans h
    exact .inl hf
  · cases hrefused.symm.trans h

/-- Settles O38, by the cases of the host action: a read changes no register, and of the writes only a soft reset clears the
bit. -/
theorem onlyAResetClearsTheFault : Obligations.OnlyAResetClearsTheFault := by
  intro action s t hf h hclear
  have hstays : t.faulted ≠ true := Bool.eq_false_iff.1 hclear
  cases action with
  | hardReset => exact .inl rfl
  | write width offset v =>
    rcases faulted_windowWrite_or_softReset hf h with hft | ⟨rfl, rfl, hbit⟩
    · exact absurd hft hstays
    · exact .inr ⟨v, hbit, rfl⟩
  | read width offset =>
    rcases perform_read_cases s width offset with ⟨w, -, hnext⟩ | ⟨-, hrefused⟩
    · cases hnext.symm.trans h
      exact absurd hf hstays
    · cases hrefused.symm.trans h

/-! ## The command that a faulted run records (R203, R219) -/

/-- A word whose issue faults the unit is the word that the record names: a command's own word is what it encodes to. -/
theorem issue_faults_of_faulted {w : Word} {s t : State} (hf : s.faulted = false) (h : issue w s = .next t)
    (hft : t.faulted = true) : ∃ c, Faults w c s t := by
  rcases issue_of_not_faulted w s hf with ⟨i, hdecode, hexec⟩ | ⟨e, -, hillegal⟩
  · obtain ⟨hencode, -⟩ := encodeOfDecode w i hdecode
    rcases commandsRetireOrFaultPrecisely i s t (hexec.symm.trans h) with ⟨-, hstatus, -⟩ | ⟨c, hfaults⟩
    · rw [State.faulted, hstatus] at hft
      exact absurd (hf.symm.trans hft) Bool.false_ne_true
    · exact ⟨c, hencode ▸ hfaults⟩
  · cases hillegal.symm.trans h
    exact ⟨.illegalCommand, faults_enterFault s .illegalCommand w⟩

theorem performAll_commandActions_cons_of_next {w : Word} {s u : State} (ws : List Word) (h : issue w s = .next u) :
    performAll (commandActions (w :: ws)) s = performAll (commandActions ws) u := by
  simp only [commandActions, List.map_cons, performAll, perform_commandAction, h]

/-- Settles O49, by induction on the words: a word that retires is one of the `n` good commands; at the first that faults
the run stands still, because a faulted unit discards the rest. -/
theorem faultedRunRecordsTheFaultingCommand : Obligations.FaultedRunRecordsTheFaultingCommand := by
  intro ws
  induction ws with
  | nil =>
    intro s t hf h hft
    cases h
    exact absurd (hf.symm.trans hft) Bool.false_ne_true
  | cons w ws ih =>
    intro s t hf h hft
    obtain ⟨s', hissue, hrest⟩ := performAll_commandActions_cons w ws s t h
    rcases issue_retires_or_faults w s s' hf hissue with ⟨hcix, hfs'⟩ | hfs'
    · obtain ⟨n, hn, u, hrun, hend, hfcix, hrecord⟩ := ih s' t hfs' hrest hft
      refine ⟨n + 1, Nat.succ_lt_succ hn, u, ?_, hend, ?_, hrecord⟩
      · exact (performAll_commandActions_cons_of_next (ws.take n) hissue).trans hrun
      · rw [hfcix, hcix, BitVec.ofNat_add]
        ac_rfl
    · rw [performAll_commandActions_of_faulted ws s' hfs'] at hrest
      cases hrest
      obtain ⟨c, hfaults⟩ := issue_faults_of_faulted hf hissue hft
      exact ⟨0, Nat.zero_lt_succ _, s, rfl, hf, by simp [hfaults.fcix_eq], hfaults.fcmd_eq,
        hfaults.cix_eq.trans hfaults.fcix_eq.symm, hfaults.sameX, hfaults.sameV, hfaults.sameK, hfaults.sameText,
        hfaults.mod_eq, hfaults.tlen_eq⟩

end Sys2Proof.Machine
end

section
/-! PROOFS. Reset and what the commands do right after it (70_reset_and_hazards.md R231, R232). -/

namespace Sys2Proof.Machine

/-- Settles O41. -/
theorem resetStateHoldsTheResetValues : Obligations.ResetStateHoldsTheResetValues := holdsResetValues_reset

/-! ## The zero key (R232): its determinant is 0, which has no inverse modulo 26 -/

theorem detInt_zero : detInt KeyMatrix.zero = 0 := rfl

theorem detFits_zero : DetFits KeyMatrix.zero := by unfold DetFits; decide

theorem eq_zero_of_isResidue_zero {w : Word} {m : Nat} (hm : 1 ≤ m) (h : IsResidue w 0 m) : w = 0 :=
  h.eq_of_canonical (w' := 0) ⟨le_rfl, Int.natCast_pos.2 hm⟩

/-! ## What the commands read of the reset table -/

section
variable {s : State}

theorem holdsResetValues_of_reset {s0 : State} (h : s = softReset s0 ∨ s = hardReset s0) : HoldsResetValues s := by
  rcases h with rfl | rfl
  · exact holdsResetValues_softReset s0
  · exact holdsResetValues_hardReset s0

theorem HoldsResetValues.getV_eq (h : HoldsResetValues s) (j : VReg) : s.getV j = [] := by
  obtain ⟨-, hv, -⟩ := h
  exact hv j

theorem HoldsResetValues.getK_eq (h : HoldsResetValues s) (j : KReg) : s.getK j = KeyMatrix.zero := by
  obtain ⟨-, -, hk, -⟩ := h
  exact hk j

theorem HoldsResetValues.modulus_eq (h : HoldsResetValues s) : s.modulus = 26 := by
  obtain ⟨-, -, -, hmod, -⟩ := h
  rw [State.modulus, hmod]
  rfl

theorem HoldsResetValues.textLength_eq (h : HoldsResetValues s) : s.textLength = 0 := by
  obtain ⟨-, -, -, -, htlen, -⟩ := h
  rw [State.textLength, htlen]
  rfl

theorem HoldsResetValues.modOk (h : HoldsResetValues s) : s.modOk := by
  rw [State.modOk, h.modulus_eq]
  decide

theorem HoldsResetValues.tlenOk (h : HoldsResetValues s) : s.tlenOk := by
  rw [State.tlenOk, h.textLength_eq]
  decide

theorem HoldsResetValues.detFits (h : HoldsResetValues s) (j : KReg) : DetFits (s.getK j) :=
  h.getK_eq j ▸ detFits_zero

theorem HoldsResetValues.detInt_eq (h : HoldsResetValues s) (j : KReg) : detInt (s.getK j) = 0 := by
  rw [h.getK_eq, detInt_zero]

theorem HoldsResetValues.matrixWidth_vec (h : HoldsResetValues s) (j : VReg) : matrixWidth (s.matrix (.vec j)) = 0 :=
  congrArg List.length (h.getV_eq j)

/-! ## The commands right after reset (R232) -/

theorem HoldsResetValues.exec_det (h : HoldsResetValues s) (xd : XReg) (j : KReg) :
    ∃ t, exec (.det xd (.key j)) s = .next t ∧ WritesX s t xd 0 := by
  obtain ⟨-, -, -, hdet⟩ := detComputesDeterminantOrFaults xd s
  obtain ⟨t, w, hexec, hwrites, hresidue⟩ := hdet j h.modOk (h.detFits j)
  rw [h.detInt_eq, h.modulus_eq] at hresidue
  obtain rfl := eq_zero_of_isResidue_zero (by decide) hresidue
  exact ⟨t, hexec, hwrites⟩

theorem HoldsResetValues.exec_detinv (h : HoldsResetValues s) (xd : XReg) (j : KReg) :
    ∃ t, exec (.detinv xd (.key j)) s = .next t ∧
      Faults (encode (.detinv xd (.key j))) .noModularInverse s t := by
  obtain ⟨-, -, -, hnone, -⟩ := detinvComputesInverseOrFaults xd s
  refine hnone j h.modOk (h.detFits j) (.inr ?_)
  rw [h.detInt_eq, h.modulus_eq]
  decide

/-- With TLEN = 0 no block is inside the text, so the parity of the address alone decides the cause. -/
theorem HoldsResetValues.exec_ldblk (h : HoldsResetValues s) (vd : VReg) (addr : Imm16) :
    ∃ t, exec (.ldblk vd addr) s = .next t ∧
      Faults (encode (.ldblk vd addr)) (if addr.toNat % 2 = 1 then .textMisaligned else .textRange) s t := by
  obtain ⟨-, hmisaligned, hrange, -⟩ := ldblkLoadsBlockOrFaults vd addr s
  split
  case isTrue hodd => exact hmisaligned hodd
  case isFalse heven => exact hrange (Nat.mod_two_ne_one.1 heven) (by rw [h.textLength_eq]; omega)

/-- The empty vector at address 0 ends where the empty text ends: the store succeeds and has no byte to write. -/
theorem HoldsResetValues.exec_stblk_zero (h : HoldsResetValues s) (va : VReg) :
    ∃ t, exec (.stblk va 0) s = .next t ∧ t.cix = s.cix + 1 ∧ SameText s t := by
  obtain ⟨-, -, -, hstores⟩ := stblkStoresBlockOrFaults va 0 s
  rw [h.getV_eq, h.textLength_eq] at hstores
  obtain ⟨t, hexec, -, -, -, -, hcix, -, hothers⟩ := hstores (by decide) h.tlenOk (by simp)
  exact ⟨t, hexec, hcix, fun a => hothers a (.inr a.zero_le)⟩

theorem HoldsResetValues.exec_stblk_ne_zero (h : HoldsResetValues s) (va : VReg) {addr : Imm16} (haddr : addr ≠ 0) :
    ∃ t, exec (.stblk va addr) s = .next t ∧ Faults (encode (.stblk va addr)) .textRange s t := by
  obtain ⟨-, hrange, -⟩ := stblkStoresBlockOrFaults va addr s
  have hpos : 0 < addr.toNat := Nat.pos_of_ne_zero fun hzero => haddr (BitVec.eq_of_toNat_eq hzero)
  exact hrange (by rw [h.textLength_eq]; omega)

/-- An empty row has width 0, and no matrix has height 0. -/
theorem HoldsResetValues.exec_mul (h : HoldsResetValues s) (vd j : VReg) (mb : MReg) :
    ∃ t, exec (.mul vd (.vec j) mb) s = .next t ∧
      Faults (encode (.mul vd (.vec j) mb)) .dimensionMismatch s t := by
  obtain ⟨-, -, hmismatch, -⟩ := mulComputesExactProductOrFaults vd (.vec j) mb s
  refine hmismatch j rfl ?_
  rw [h.matrixWidth_vec]
  exact (matrixHeight_pos _).ne

end

/-- Settles O42: after either reset the registers hold the values of the reset table, and that is all each case needs. -/
theorem commandsRightAfterReset : Obligations.CommandsRightAfterReset := by
  intro s s0 hreset
  have h := holdsResetValues_of_reset hreset
  exact ⟨h.exec_det, h.exec_detinv, h.exec_ldblk, h.exec_stblk_zero, fun va _ => h.exec_stblk_ne_zero va, h.exec_mul⟩

end Sys2Proof.Machine
end

section
/-! PROOFS. The worked encodings (30_encoding.md section 6): a word decodes to a command exactly when it is that command's
word, so each listed word need only be the encoding of its command. -/

namespace Sys2Proof

theorem decode_eq_ok_iff (w : Word) (i : Instr) : decode w = .ok i ↔ encode i = w ∧ i.wellFormed = true := by
  constructor
  · exact encodeOfDecode w i
  · rintro ⟨rfl, hwf⟩
    exact decodeOfEncode i hwf

/-- Settles O33, by the encoding of each command: of the five only CRW has a limit on a field, and 0, the number of
MOD, is within it. -/
theorem workedEncodingsDecode : Obligations.WorkedEncodingsDecode := by
  refine ⟨?li, ?crw, ?mul, ?inv, ?stblk⟩
  case li => exact (decode_eq_ok_iff _ _).2 ⟨rfl, rfl⟩
  case crw => exact (decode_eq_ok_iff _ _).2 ⟨rfl, (wellFormed_crw 0 1).2 (Nat.zero_le 1)⟩
  case mul => exact (decode_eq_ok_iff _ _).2 ⟨rfl, rfl⟩
  case inv => exact (decode_eq_ok_iff _ _).2 ⟨rfl, rfl⟩
  case stblk => exact (decode_eq_ok_iff _ _).2 ⟨rfl, rfl⟩

end Sys2Proof
end
